-- ==== Sys2Proof/Word.lean ====
section
/-! DEFINITION. The word types of CORE: 32-bit words and addresses, 8-bit bytes, 5-bit register numbers
(spec/00_scope.md R7, R8). -/

namespace Sys2Proof

/-- A 32-bit word: a register value, a program counter, an address, an instruction word (R7, R8). -/
abbrev Word := BitVec 32

/-- The addressable unit, 8 bits (R7, R50). -/
abbrev Byte := BitVec 8

/-- The number of a general register, 0 to 31 (R7, R21). -/
abbrev RegIdx := BitVec 5

end Sys2Proof
end

