-- ==== Sys2Proof/Machine/Operands.lean ====
section
/-! DEFINITION. The operand forms: effective addresses, shift amounts, upper immediates, the extension of a loaded value,
and the registers and numbers of the environment call. -/

namespace Sys2Proof.Machine

/-- Base register plus displacement, modulo 2^32: the one addressing mode (spec/43_load.md R180, spec/44_store.md R190). -/
def effAddr (base imm : Word) : Word := base + imm

/-- The amount of a register shift, `x[rs2][4:0]` (spec/40_alu_reg.md R131). -/
def shiftAmount (v : Word) : Nat := (v.extractLsb' 0 5).toNat

/-- The U-format immediate in the upper 20 bits (spec/46_upper_imm.md R210). -/
def upperImm (imm : Word) : Word := imm <<< 12

/-- `sext_8` of the low byte (spec/00_scope.md R9, spec/43_load.md R181). -/
def sextByte (v : Word) : Word := (v.setWidth 8).signExtend 32

/-- `sext_16` of the low half (R9, R182). -/
def sextHalf (v : Word) : Word := (v.setWidth 16).signExtend 32

/-- `zext_8` of the low byte (R9, R184). -/
def zextByte (v : Word) : Word := (v.setWidth 8).setWidth 32

/-- `zext_16` of the low half (R9, R185). -/
def zextHalf (v : Word) : Word := (v.setWidth 16).setWidth 32

/-- The target of jalr: the sum with bit 0 cleared (spec/47_jump.md R216). -/
def jalrTarget (base imm : Word) : Word := (base + imm) &&& 0xFFFFFFFE#32

/-- `ECALL_NUM_REG` (spec/00_scope.md R7, spec/48_ecall.md R221; D10, log 27). -/
def ecallNumReg : RegIdx := 17#5

/-- `ECALL_RET_REG` (R7, R221; D10, log 27). -/
def ecallRetReg : RegIdx := 10#5

/-- Call 1, read a character (R220). -/
def callRead : Word := 1#32
/-- Call 2, write a character (R220). -/
def callWrite : Word := 2#32
/-- Call 3, exit (R220). -/
def callExit : Word := 3#32
/-- Call 93, exit (R220). -/
def callExit93 : Word := 93#32

end Sys2Proof.Machine
end

