-- ==== Sys2Proof/Machine/Arith.lean ====
section
/-! DEFINITION. The values the arithmetic, shift, multiply and divide units compute (spec/40_alu_reg.md,
spec/41_muldiv.md). Products, quotients and remainders are taken on integers and then reduced to 32 bits, as the spec
writes them. `u(v)` is `toNat`, `s(v)` is `toInt` (spec/00_scope.md R9). -/

namespace Sys2Proof.Machine

/-- `v << n` (R9, R122). -/
def shiftLeft (v : Word) (n : Nat) : Word := v <<< n

/-- `v >>u n` (R9, R126). -/
def shiftRight (v : Word) (n : Nat) : Word := v >>> n

/-- `v >>s n` (R9, R127). -/
def shiftRightArith (v : Word) (n : Nat) : Word := v.sshiftRight n

/-- Bits 31:0 of the product (R140). -/
def mulLow (a b : Word) : Word := BitVec.ofNat 32 (a.toNat * b.toNat)

/-- `P[63:32]` of a product as a 64-bit two's-complement number (R141, R142). -/
def highWord (p : Int) : Word := (BitVec.ofInt 64 p).extractLsb' 32 32

/-- Signed by signed (R141). -/
def mulHighSigned (a b : Word) : Word := highWord (a.toInt * b.toInt)

/-- Signed by unsigned: `a` is the signed operand (R142, R151). -/
def mulHighSignedUnsigned (a b : Word) : Word := highWord (a.toInt * b.toNat)

/-- Unsigned by unsigned (R143). -/
def mulHighUnsigned (a b : Word) : Word := highWord (a.toNat * b.toNat : Nat)

/-- The case of divide overflow: -2^31 divided by -1 (R144, R146). -/
def divOverflows (a b : Word) : Bool := decide (a.toInt = -2 ^ 31 ∧ b.toInt = -1)

/-- Signed quotient, rounded toward zero (R144, R149). -/
def divSigned (a b : Word) : Word :=
  if b = 0#32 then 0xFFFFFFFF#32
  else if divOverflows a b then 0x80000000#32
  else BitVec.ofInt 32 (a.toInt.tdiv b.toInt)

/-- Unsigned quotient (R145). -/
def divUnsigned (a b : Word) : Word :=
  if b = 0#32 then 0xFFFFFFFF#32 else BitVec.ofNat 32 (a.toNat / b.toNat)

/-- Signed remainder, `a - b * trunc(a / b)` (R146, R149). -/
def remSigned (a b : Word) : Word :=
  if b = 0#32 then a
  else if divOverflows a b then 0#32
  else BitVec.ofInt 32 (a.toInt - b.toInt * a.toInt.tdiv b.toInt)

/-- Unsigned remainder, `a - b * floor(a / b)` (R147). -/
def remUnsigned (a b : Word) : Word :=
  if b = 0#32 then a else BitVec.ofNat 32 (a.toNat - b.toNat * (a.toNat / b.toNat))

end Sys2Proof.Machine
end

