-- ==== Sys2Proof/Machine/Flags.lean ====
section
/-! DEFINITION. The core has no flags (spec/10_state.md R30): a comparison writes 0 or 1 to a register or decides a
branch. These are the comparisons, each the one definition its set-less-than and its branch share. -/

namespace Sys2Proof.Machine

/-- `s(a) < s(b)` (spec/00_scope.md R9; R123, R203). -/
def lessSigned (a b : Word) : Bool := decide (a.toInt < b.toInt)

/-- `u(a) < u(b)` (R9; R124, R205). -/
def lessUnsigned (a b : Word) : Bool := decide (a.toNat < b.toNat)

/-- The 32-bit value 1 or 0 of a comparison (R123). -/
def boolWord (c : Bool) : Word := if c then 1#32 else 0#32

end Sys2Proof.Machine
end

