-- ==== Sys2Proof/Syntax.lean ====
section
/-! DEFINITION. The 46 operations of spec/30_encoding.md R92, one constructor per row of spec/opcode_table.json,
with the operands the spec's rule of each names. An immediate is the 32-bit `imm` the format decoder delivers (R11, R81):
sign-extended in the I, S, B and J formats, the unsigned 20-bit field in the U format. The amount of an immediate shift
is the 5-bit `shamt` of R160. Which immediates a word can carry is Sys2Proof/WellFormed.lean. -/

namespace Sys2Proof

/-- An instruction of CORE (R92). -/
inductive Instr where
  /-- R120 -/
  | add (rd rs1 rs2 : RegIdx)
  /-- R121 -/
  | sub (rd rs1 rs2 : RegIdx)
  /-- R122 -/
  | sll (rd rs1 rs2 : RegIdx)
  /-- R123 -/
  | slt (rd rs1 rs2 : RegIdx)
  /-- R124 -/
  | sltu (rd rs1 rs2 : RegIdx)
  /-- R125 -/
  | xor (rd rs1 rs2 : RegIdx)
  /-- R126 -/
  | srl (rd rs1 rs2 : RegIdx)
  /-- R127 -/
  | sra (rd rs1 rs2 : RegIdx)
  /-- R128 -/
  | or (rd rs1 rs2 : RegIdx)
  /-- R129 -/
  | and (rd rs1 rs2 : RegIdx)
  /-- R140 -/
  | mul (rd rs1 rs2 : RegIdx)
  /-- R141 -/
  | mulh (rd rs1 rs2 : RegIdx)
  /-- R142 -/
  | mulhsu (rd rs1 rs2 : RegIdx)
  /-- R143 -/
  | mulhu (rd rs1 rs2 : RegIdx)
  /-- R144 -/
  | div (rd rs1 rs2 : RegIdx)
  /-- R145 -/
  | divu (rd rs1 rs2 : RegIdx)
  /-- R146 -/
  | rem (rd rs1 rs2 : RegIdx)
  /-- R147 -/
  | remu (rd rs1 rs2 : RegIdx)
  /-- R161 -/
  | addi (rd rs1 : RegIdx) (imm : Word)
  /-- R162 -/
  | slli (rd rs1 : RegIdx) (shamt : BitVec 5)
  /-- R163 -/
  | slti (rd rs1 : RegIdx) (imm : Word)
  /-- R164 -/
  | sltiu (rd rs1 : RegIdx) (imm : Word)
  /-- R165 -/
  | xori (rd rs1 : RegIdx) (imm : Word)
  /-- R166 -/
  | srli (rd rs1 : RegIdx) (shamt : BitVec 5)
  /-- R167 -/
  | srai (rd rs1 : RegIdx) (shamt : BitVec 5)
  /-- R168 -/
  | ori (rd rs1 : RegIdx) (imm : Word)
  /-- R169 -/
  | andi (rd rs1 : RegIdx) (imm : Word)
  /-- R181 -/
  | lb (rd rs1 : RegIdx) (imm : Word)
  /-- R182 -/
  | lh (rd rs1 : RegIdx) (imm : Word)
  /-- R183 -/
  | lw (rd rs1 : RegIdx) (imm : Word)
  /-- R184 -/
  | lbu (rd rs1 : RegIdx) (imm : Word)
  /-- R185 -/
  | lhu (rd rs1 : RegIdx) (imm : Word)
  /-- R191 -/
  | sb (rs1 rs2 : RegIdx) (imm : Word)
  /-- R192 -/
  | sh (rs1 rs2 : RegIdx) (imm : Word)
  /-- R193 -/
  | sw (rs1 rs2 : RegIdx) (imm : Word)
  /-- R201 -/
  | beq (rs1 rs2 : RegIdx) (imm : Word)
  /-- R202 -/
  | bne (rs1 rs2 : RegIdx) (imm : Word)
  /-- R203 -/
  | blt (rs1 rs2 : RegIdx) (imm : Word)
  /-- R204 -/
  | bge (rs1 rs2 : RegIdx) (imm : Word)
  /-- R205 -/
  | bltu (rs1 rs2 : RegIdx) (imm : Word)
  /-- R206 -/
  | bgeu (rs1 rs2 : RegIdx) (imm : Word)
  /-- R210 -/
  | lui (rd : RegIdx) (imm : Word)
  /-- R211 -/
  | auipc (rd : RegIdx) (imm : Word)
  /-- R215 -/
  | jal (rd : RegIdx) (imm : Word)
  /-- R216 -/
  | jalr (rd rs1 : RegIdx) (imm : Word)
  /-- R220: no operand in the instruction -/
  | ecall
  deriving DecidableEq, Repr

end Sys2Proof
end

