-- ==== Sys2Proof/WellFormed.lean ====
section
/-! DEFINITION. Which operands a word can carry: the ranges of the immediates (spec/30_encoding.md R83 to R87).
Register numbers and shift amounts need no check, their types hold exactly what their fields hold. -/

namespace Sys2Proof

/-- I and S formats: -2048 to 2047 (R83, R84). -/
def imm12 (imm : Word) : Bool := decide (-2048 ≤ imm.toInt ∧ imm.toInt ≤ 2047)

/-- B format: an even number, -4096 to 4094 (R85). -/
def imm13 (imm : Word) : Bool := decide (-4096 ≤ imm.toInt ∧ imm.toInt ≤ 4094) && !imm.getLsbD 0

/-- U format: 0 to 0xFFFFF, not shifted (R86). -/
def imm20 (imm : Word) : Bool := decide (imm.toNat ≤ 0xFFFFF)

/-- J format: an even number, -1048576 to 1048574 (R87). -/
def imm21 (imm : Word) : Bool := decide (-1048576 ≤ imm.toInt ∧ imm.toInt ≤ 1048574) && !imm.getLsbD 0

/-- The immediate is one the instruction's format can encode. -/
def Instr.wf : Instr → Bool
  | .add _ _ _ | .sub _ _ _ | .sll _ _ _ | .slt _ _ _ | .sltu _ _ _ => true
  | .xor _ _ _ | .srl _ _ _ | .sra _ _ _ | .or _ _ _ | .and _ _ _ => true
  | .mul _ _ _ | .mulh _ _ _ | .mulhsu _ _ _ | .mulhu _ _ _ => true
  | .div _ _ _ | .divu _ _ _ | .rem _ _ _ | .remu _ _ _ => true
  | .slli _ _ _ | .srli _ _ _ | .srai _ _ _ => true
  | .addi _ _ imm | .slti _ _ imm | .sltiu _ _ imm => imm12 imm
  | .xori _ _ imm | .ori _ _ imm | .andi _ _ imm => imm12 imm
  | .lb _ _ imm | .lh _ _ imm | .lw _ _ imm | .lbu _ _ imm | .lhu _ _ imm => imm12 imm
  | .sb _ _ imm | .sh _ _ imm | .sw _ _ imm => imm12 imm
  | .beq _ _ imm | .bne _ _ imm | .blt _ _ imm => imm13 imm
  | .bge _ _ imm | .bltu _ _ imm | .bgeu _ _ imm => imm13 imm
  | .lui _ imm | .auipc _ imm => imm20 imm
  | .jal _ imm => imm21 imm
  | .jalr _ _ imm => imm12 imm
  | .ecall => true

end Sys2Proof
end

