-- ==== Sys2Proof/Decode.lean ====
section
/-! DEFINITION. The format decoders, the routing and the encoder of spec/30_encoding.md: R81 to R89 (fields and
immediates), R90 to R96 (the two-level dispatch), R102 (what is illegal, each rejection by name), R92 and R108 (the words
of an instruction). Every function here is total. -/

namespace Sys2Proof

/-! ### The Decoded Fields record and the six format decoders -/

/-- The Decoded Fields record (R81). A field the format lacks is 0 (R88). -/
structure Fields where
  opcode : BitVec 7
  rd : RegIdx
  funct3 : BitVec 3
  rs1 : RegIdx
  rs2 : RegIdx
  funct7 : BitVec 7
  imm : Word
  deriving DecidableEq, Repr

/-- `w[6:0]`, in every format. -/
def opcodeOf (w : Word) : BitVec 7 := w.extractLsb' 0 7
/-- `w[11:7]`, where the format has an `rd`. -/
def rdOf (w : Word) : RegIdx := w.extractLsb' 7 5
/-- `w[14:12]`, where the format has a `funct3`. -/
def funct3Of (w : Word) : BitVec 3 := w.extractLsb' 12 3
/-- `w[19:15]`, where the format has an `rs1`. -/
def rs1Of (w : Word) : RegIdx := w.extractLsb' 15 5
/-- `w[24:20]`, where the format has an `rs2`; also `imm[4:0]` of the I format (R160). -/
def rs2Of (w : Word) : RegIdx := w.extractLsb' 20 5
/-- `w[31:25]`, where the format has a `funct7`. -/
def funct7Of (w : Word) : BitVec 7 := w.extractLsb' 25 7

/-- `sext_12(w[31:20])` (R83). -/
def immI (w : Word) : Word := (w.extractLsb' 20 12).signExtend 32

/-- `sext_12({w[31:25], w[11:7]})` (R84). -/
def immS (w : Word) : Word := (w.extractLsb' 25 7 ++ w.extractLsb' 7 5 : BitVec 12).signExtend 32

/-- `sext_13({w[31], w[7], w[30:25], w[11:8], 0b0})` (R85). -/
def immB (w : Word) : Word :=
  (w.extractLsb' 31 1 ++ w.extractLsb' 7 1 ++ w.extractLsb' 25 6 ++ w.extractLsb' 8 4 ++ 0#1 : BitVec 13).signExtend 32

/-- `zext_20(w[31:12])`, not shifted (R86). -/
def immU (w : Word) : Word := (w.extractLsb' 12 20).setWidth 32

/-- `sext_21({w[31], w[19:12], w[20], w[30:21], 0b0})` (R87). -/
def immJ (w : Word) : Word :=
  (w.extractLsb' 31 1 ++ w.extractLsb' 12 8 ++ w.extractLsb' 20 1 ++ w.extractLsb' 21 10 ++ 0#1 : BitVec 21).signExtend 32

/-- R format (R82). -/
def fieldsR (w : Word) : Fields :=
  { opcode := opcodeOf w, rd := rdOf w, funct3 := funct3Of w, rs1 := rs1Of w, rs2 := rs2Of w, funct7 := funct7Of w, imm := 0 }

/-- I format (R83). -/
def fieldsI (w : Word) : Fields :=
  { opcode := opcodeOf w, rd := rdOf w, funct3 := funct3Of w, rs1 := rs1Of w, rs2 := 0, funct7 := 0, imm := immI w }

/-- S format (R84). -/
def fieldsS (w : Word) : Fields :=
  { opcode := opcodeOf w, rd := 0, funct3 := funct3Of w, rs1 := rs1Of w, rs2 := rs2Of w, funct7 := 0, imm := immS w }

/-- B format (R85). -/
def fieldsB (w : Word) : Fields :=
  { opcode := opcodeOf w, rd := 0, funct3 := funct3Of w, rs1 := rs1Of w, rs2 := rs2Of w, funct7 := 0, imm := immB w }

/-- U format (R86). -/
def fieldsU (w : Word) : Fields :=
  { opcode := opcodeOf w, rd := rdOf w, funct3 := 0, rs1 := 0, rs2 := 0, funct7 := 0, imm := immU w }

/-- J format (R87). -/
def fieldsJ (w : Word) : Fields :=
  { opcode := opcodeOf w, rd := rdOf w, funct3 := 0, rs1 := 0, rs2 := 0, funct7 := 0, imm := immJ w }

/-! ### Routing -/

/-- Why a word, or a list of bytes, is no instruction (R102). -/
inductive Illegal where
  /-- The opcode is not one of the ten of R90. -/
  | opcode (op : BitVec 7)
  /-- The opcode is in the table and no row has this `funct3` under it (R95, R96). -/
  | funct3 (op : BitVec 7) (f3 : BitVec 3)
  /-- Opcode 0x33 and no row has this `funct7` and `funct3` (R93). -/
  | funct7 (f7 : BitVec 7) (f3 : BitVec 3)
  /-- Fewer than four bytes are left: the model's own name, for `decodeBytes` only (R80: a word is 32 bits). -/
  | truncated
  deriving DecidableEq, Repr

/-- Opcode 0x33, `funct7` 0x00 (R93). All eight `funct3` exist. -/
def routeAlu (f : Fields) : Instr :=
  match f.funct3.toNat with
  | 0 => .add f.rd f.rs1 f.rs2
  | 1 => .sll f.rd f.rs1 f.rs2
  | 2 => .slt f.rd f.rs1 f.rs2
  | 3 => .sltu f.rd f.rs1 f.rs2
  | 4 => .xor f.rd f.rs1 f.rs2
  | 5 => .srl f.rd f.rs1 f.rs2
  | 6 => .or f.rd f.rs1 f.rs2
  | _ => .and f.rd f.rs1 f.rs2

/-- Opcode 0x33, `funct7` 0x20: `funct3` 0 and 5 only (R93). -/
def routeAluAlt (f : Fields) : Except Illegal Instr :=
  match f.funct3.toNat with
  | 0 => .ok (.sub f.rd f.rs1 f.rs2)
  | 5 => .ok (.sra f.rd f.rs1 f.rs2)
  | _ => .error (.funct7 f.funct7 f.funct3)

/-- Opcode 0x33, `funct7` 0x01 (R93). All eight `funct3` exist. -/
def routeMulDiv (f : Fields) : Instr :=
  match f.funct3.toNat with
  | 0 => .mul f.rd f.rs1 f.rs2
  | 1 => .mulh f.rd f.rs1 f.rs2
  | 2 => .mulhsu f.rd f.rs1 f.rs2
  | 3 => .mulhu f.rd f.rs1 f.rs2
  | 4 => .div f.rd f.rs1 f.rs2
  | 5 => .divu f.rd f.rs1 f.rs2
  | 6 => .rem f.rd f.rs1 f.rs2
  | _ => .remu f.rd f.rs1 f.rs2

/-- Opcode 0x33: `funct7` first, all seven bits of it (R93). -/
def routeReg (f : Fields) : Except Illegal Instr :=
  if f.funct7 = 0x00#7 then .ok (routeAlu f)
  else if f.funct7 = 0x20#7 then routeAluAlt f
  else if f.funct7 = 0x01#7 then .ok (routeMulDiv f)
  else .error (.funct7 f.funct7 f.funct3)

/-- `shamt = imm[4:0]` of an immediate shift (R160). -/
def shamtOf (f : Fields) : BitVec 5 := f.imm.extractLsb' 0 5

/-- Opcode 0x13: all eight `funct3` exist; under 5, `imm[10]` chooses the shift (R94, R160). -/
def routeImm (f : Fields) : Instr :=
  match f.funct3.toNat with
  | 0 => .addi f.rd f.rs1 f.imm
  | 1 => .slli f.rd f.rs1 (shamtOf f)
  | 2 => .slti f.rd f.rs1 f.imm
  | 3 => .sltiu f.rd f.rs1 f.imm
  | 4 => .xori f.rd f.rs1 f.imm
  | 5 => if f.imm.getLsbD 10 then .srai f.rd f.rs1 (shamtOf f) else .srli f.rd f.rs1 (shamtOf f)
  | 6 => .ori f.rd f.rs1 f.imm
  | _ => .andi f.rd f.rs1 f.imm

/-- Opcode 0x03 (R95). -/
def routeLoad (f : Fields) : Except Illegal Instr :=
  match f.funct3.toNat with
  | 0 => .ok (.lb f.rd f.rs1 f.imm)
  | 1 => .ok (.lh f.rd f.rs1 f.imm)
  | 2 => .ok (.lw f.rd f.rs1 f.imm)
  | 4 => .ok (.lbu f.rd f.rs1 f.imm)
  | 5 => .ok (.lhu f.rd f.rs1 f.imm)
  | _ => .error (.funct3 f.opcode f.funct3)

/-- Opcode 0x23 (R95). -/
def routeStore (f : Fields) : Except Illegal Instr :=
  match f.funct3.toNat with
  | 0 => .ok (.sb f.rs1 f.rs2 f.imm)
  | 1 => .ok (.sh f.rs1 f.rs2 f.imm)
  | 2 => .ok (.sw f.rs1 f.rs2 f.imm)
  | _ => .error (.funct3 f.opcode f.funct3)

/-- Opcode 0x63 (R95). -/
def routeBranch (f : Fields) : Except Illegal Instr :=
  match f.funct3.toNat with
  | 0 => .ok (.beq f.rs1 f.rs2 f.imm)
  | 1 => .ok (.bne f.rs1 f.rs2 f.imm)
  | 4 => .ok (.blt f.rs1 f.rs2 f.imm)
  | 5 => .ok (.bge f.rs1 f.rs2 f.imm)
  | 6 => .ok (.bltu f.rs1 f.rs2 f.imm)
  | 7 => .ok (.bgeu f.rs1 f.rs2 f.imm)
  | _ => .error (.funct3 f.opcode f.funct3)

/-- Opcode 0x67: `funct3` 0 only (R96). -/
def routeJalr (f : Fields) : Except Illegal Instr :=
  if f.funct3 = 0#3 then .ok (.jalr f.rd f.rs1 f.imm) else .error (.funct3 f.opcode f.funct3)

/-- Opcode 0x73: `funct3` 0 only; every other bit is ignored (R96, R101, R103). -/
def routeSystem (f : Fields) : Except Illegal Instr :=
  if f.funct3 = 0#3 then .ok .ecall else .error (.funct3 f.opcode f.funct3)

/-- `Route(w)`, the decoder: the opcode selects the format and the family (R90), the family's inner dispatch the
operation (R92 to R96); everything else is illegal (R102). -/
def decode (w : Word) : Except Illegal Instr :=
  match (opcodeOf w).toNat with
  | 0x33 => routeReg (fieldsR w)
  | 0x13 => .ok (routeImm (fieldsI w))
  | 0x03 => routeLoad (fieldsI w)
  | 0x23 => routeStore (fieldsS w)
  | 0x63 => routeBranch (fieldsB w)
  | 0x37 => .ok (.lui (fieldsU w).rd (fieldsU w).imm)
  | 0x17 => .ok (.auipc (fieldsU w).rd (fieldsU w).imm)
  | 0x6F => .ok (.jal (fieldsJ w).rd (fieldsJ w).imm)
  | 0x67 => routeJalr (fieldsI w)
  | 0x73 => routeSystem (fieldsI w)
  | _ => .error (.opcode (opcodeOf w))

/-! ### Bytes -/

/-- The word whose byte at the lowest address is the first: little-endian (R55). -/
def wordOfBytes (b0 b1 b2 b3 : Byte) : Word := b3 ++ b2 ++ b1 ++ b0

/-- Byte `k` of a word, `k` = 0 for bits 7:0 (R55). -/
def byteOf (v : Word) (k : Nat) : Byte := v.extractLsb' (8 * k) 8

/-- The four bytes of a word as memory holds them, lowest address first (R55). -/
def bytesOfWord (w : Word) : List Byte := [byteOf w 0, byteOf w 1, byteOf w 2, byteOf w 3]

/-- Decodes the instruction at the head of a list of bytes and answers the rest: four bytes, always (R80). -/
def decodeBytes : List Byte → Except Illegal (Instr × List Byte)
  | b0 :: b1 :: b2 :: b3 :: rest =>
    match decode (wordOfBytes b0 b1 b2 b3) with
    | .ok i => .ok (i, rest)
    | .error e => .error e
  | _ => .error .truncated

/-- The instruction the decoder reads from the word whose bits are the low `nbits` bits of `w`, laid out in
memory's byte order. -/
def decodeTableWord (nbits w : Nat) : Option Instr :=
  match decodeBytes (bytesOfWord (BitVec.ofNat 32 (w % 2 ^ nbits))) with
  | .ok (i, _) => some i
  | .error _ => none

/-! ### The encoder -/

/-- R format (R82). -/
def encR (f7 : BitVec 7) (rs2 rs1 : RegIdx) (f3 : BitVec 3) (rd : RegIdx) (op : BitVec 7) : Word :=
  f7 ++ rs2 ++ rs1 ++ f3 ++ rd ++ op

/-- I format (R83). -/
def encI (imm : Word) (rs1 : RegIdx) (f3 : BitVec 3) (rd : RegIdx) (op : BitVec 7) : Word :=
  imm.extractLsb' 0 12 ++ rs1 ++ f3 ++ rd ++ op

/-- S format (R84). -/
def encS (imm : Word) (rs2 rs1 : RegIdx) (f3 : BitVec 3) (op : BitVec 7) : Word :=
  imm.extractLsb' 5 7 ++ rs2 ++ rs1 ++ f3 ++ imm.extractLsb' 0 5 ++ op

/-- B format (R85). -/
def encB (imm : Word) (rs2 rs1 : RegIdx) (f3 : BitVec 3) (op : BitVec 7) : Word :=
  imm.extractLsb' 12 1 ++ imm.extractLsb' 5 6 ++ rs2 ++ rs1 ++ f3 ++ imm.extractLsb' 1 4 ++ imm.extractLsb' 11 1 ++ op

/-- U format (R86). -/
def encU (imm : Word) (rd : RegIdx) (op : BitVec 7) : Word := imm.extractLsb' 0 20 ++ rd ++ op

/-- J format (R87). -/
def encJ (imm : Word) (rd : RegIdx) (op : BitVec 7) : Word :=
  imm.extractLsb' 20 1 ++ imm.extractLsb' 1 10 ++ imm.extractLsb' 11 1 ++ imm.extractLsb' 12 8 ++ rd ++ op

/-- The word of an instruction, with the bits the hardware ignores as the assembler writes them (R162, R166, R167,
R220). -/
def encode : Instr → Word
  | .add rd rs1 rs2 => encR 0x00 rs2 rs1 0 rd 0x33
  | .sub rd rs1 rs2 => encR 0x20 rs2 rs1 0 rd 0x33
  | .sll rd rs1 rs2 => encR 0x00 rs2 rs1 1 rd 0x33
  | .slt rd rs1 rs2 => encR 0x00 rs2 rs1 2 rd 0x33
  | .sltu rd rs1 rs2 => encR 0x00 rs2 rs1 3 rd 0x33
  | .xor rd rs1 rs2 => encR 0x00 rs2 rs1 4 rd 0x33
  | .srl rd rs1 rs2 => encR 0x00 rs2 rs1 5 rd 0x33
  | .sra rd rs1 rs2 => encR 0x20 rs2 rs1 5 rd 0x33
  | .or rd rs1 rs2 => encR 0x00 rs2 rs1 6 rd 0x33
  | .and rd rs1 rs2 => encR 0x00 rs2 rs1 7 rd 0x33
  | .mul rd rs1 rs2 => encR 0x01 rs2 rs1 0 rd 0x33
  | .mulh rd rs1 rs2 => encR 0x01 rs2 rs1 1 rd 0x33
  | .mulhsu rd rs1 rs2 => encR 0x01 rs2 rs1 2 rd 0x33
  | .mulhu rd rs1 rs2 => encR 0x01 rs2 rs1 3 rd 0x33
  | .div rd rs1 rs2 => encR 0x01 rs2 rs1 4 rd 0x33
  | .divu rd rs1 rs2 => encR 0x01 rs2 rs1 5 rd 0x33
  | .rem rd rs1 rs2 => encR 0x01 rs2 rs1 6 rd 0x33
  | .remu rd rs1 rs2 => encR 0x01 rs2 rs1 7 rd 0x33
  | .addi rd rs1 imm => encI imm rs1 0 rd 0x13
  | .slli rd rs1 shamt => encR 0x00 shamt rs1 1 rd 0x13
  | .slti rd rs1 imm => encI imm rs1 2 rd 0x13
  | .sltiu rd rs1 imm => encI imm rs1 3 rd 0x13
  | .xori rd rs1 imm => encI imm rs1 4 rd 0x13
  | .srli rd rs1 shamt => encR 0x00 shamt rs1 5 rd 0x13
  | .srai rd rs1 shamt => encR 0x20 shamt rs1 5 rd 0x13
  | .ori rd rs1 imm => encI imm rs1 6 rd 0x13
  | .andi rd rs1 imm => encI imm rs1 7 rd 0x13
  | .lb rd rs1 imm => encI imm rs1 0 rd 0x03
  | .lh rd rs1 imm => encI imm rs1 1 rd 0x03
  | .lw rd rs1 imm => encI imm rs1 2 rd 0x03
  | .lbu rd rs1 imm => encI imm rs1 4 rd 0x03
  | .lhu rd rs1 imm => encI imm rs1 5 rd 0x03
  | .sb rs1 rs2 imm => encS imm rs2 rs1 0 0x23
  | .sh rs1 rs2 imm => encS imm rs2 rs1 1 0x23
  | .sw rs1 rs2 imm => encS imm rs2 rs1 2 0x23
  | .beq rs1 rs2 imm => encB imm rs2 rs1 0 0x63
  | .bne rs1 rs2 imm => encB imm rs2 rs1 1 0x63
  | .blt rs1 rs2 imm => encB imm rs2 rs1 4 0x63
  | .bge rs1 rs2 imm => encB imm rs2 rs1 5 0x63
  | .bltu rs1 rs2 imm => encB imm rs2 rs1 6 0x63
  | .bgeu rs1 rs2 imm => encB imm rs2 rs1 7 0x63
  | .lui rd imm => encU imm rd 0x37
  | .auipc rd imm => encU imm rd 0x17
  | .jal rd imm => encJ imm rd 0x6F
  | .jalr rd rs1 imm => encI imm rs1 0 rd 0x67
  | .ecall => 0x00000073

/-! ### The rows of the routing table -/

/-- A row of the routing table: a word matches it when `(w & mask) = value` (R92). -/
structure Row where
  mask : Word
  value : Word
  deriving DecidableEq, Repr

/-- The row of R92 that routes to an instruction: the table's own `mask` and `match`. `decode` does not use it: that the
two agree is a statement about them. -/
def Instr.row : Instr → Row
  | .add _ _ _ => ⟨0xFE00707F, 0x00000033⟩
  | .sub _ _ _ => ⟨0xFE00707F, 0x40000033⟩
  | .sll _ _ _ => ⟨0xFE00707F, 0x00001033⟩
  | .slt _ _ _ => ⟨0xFE00707F, 0x00002033⟩
  | .sltu _ _ _ => ⟨0xFE00707F, 0x00003033⟩
  | .xor _ _ _ => ⟨0xFE00707F, 0x00004033⟩
  | .srl _ _ _ => ⟨0xFE00707F, 0x00005033⟩
  | .sra _ _ _ => ⟨0xFE00707F, 0x40005033⟩
  | .or _ _ _ => ⟨0xFE00707F, 0x00006033⟩
  | .and _ _ _ => ⟨0xFE00707F, 0x00007033⟩
  | .mul _ _ _ => ⟨0xFE00707F, 0x02000033⟩
  | .mulh _ _ _ => ⟨0xFE00707F, 0x02001033⟩
  | .mulhsu _ _ _ => ⟨0xFE00707F, 0x02002033⟩
  | .mulhu _ _ _ => ⟨0xFE00707F, 0x02003033⟩
  | .div _ _ _ => ⟨0xFE00707F, 0x02004033⟩
  | .divu _ _ _ => ⟨0xFE00707F, 0x02005033⟩
  | .rem _ _ _ => ⟨0xFE00707F, 0x02006033⟩
  | .remu _ _ _ => ⟨0xFE00707F, 0x02007033⟩
  | .addi _ _ _ => ⟨0x0000707F, 0x00000013⟩
  | .slli _ _ _ => ⟨0x0000707F, 0x00001013⟩
  | .slti _ _ _ => ⟨0x0000707F, 0x00002013⟩
  | .sltiu _ _ _ => ⟨0x0000707F, 0x00003013⟩
  | .xori _ _ _ => ⟨0x0000707F, 0x00004013⟩
  | .srli _ _ _ => ⟨0x4000707F, 0x00005013⟩
  | .srai _ _ _ => ⟨0x4000707F, 0x40005013⟩
  | .ori _ _ _ => ⟨0x0000707F, 0x00006013⟩
  | .andi _ _ _ => ⟨0x0000707F, 0x00007013⟩
  | .lb _ _ _ => ⟨0x0000707F, 0x00000003⟩
  | .lh _ _ _ => ⟨0x0000707F, 0x00001003⟩
  | .lw _ _ _ => ⟨0x0000707F, 0x00002003⟩
  | .lbu _ _ _ => ⟨0x0000707F, 0x00004003⟩
  | .lhu _ _ _ => ⟨0x0000707F, 0x00005003⟩
  | .sb _ _ _ => ⟨0x0000707F, 0x00000023⟩
  | .sh _ _ _ => ⟨0x0000707F, 0x00001023⟩
  | .sw _ _ _ => ⟨0x0000707F, 0x00002023⟩
  | .beq _ _ _ => ⟨0x0000707F, 0x00000063⟩
  | .bne _ _ _ => ⟨0x0000707F, 0x00001063⟩
  | .blt _ _ _ => ⟨0x0000707F, 0x00004063⟩
  | .bge _ _ _ => ⟨0x0000707F, 0x00005063⟩
  | .bltu _ _ _ => ⟨0x0000707F, 0x00006063⟩
  | .bgeu _ _ _ => ⟨0x0000707F, 0x00007063⟩
  | .lui _ _ => ⟨0x0000007F, 0x00000037⟩
  | .auipc _ _ => ⟨0x0000007F, 0x00000017⟩
  | .jal _ _ => ⟨0x0000007F, 0x0000006F⟩
  | .jalr _ _ _ => ⟨0x0000707F, 0x00000067⟩
  | .ecall => ⟨0x0000707F, 0x00000073⟩

end Sys2Proof
end

