-- ==== Sys2Proof/Config.lean ====
section
/-! DEFINITION. The values `State.reset` takes for the OPEN parameters of spec/00_scope.md R7. The parameters
themselves are data in State (Machine/State.lean), so that a claim about every state speaks of every value. -/

namespace Sys2Proof.Config

/-- `ENTRY` of `State.reset`. OPEN in the spec (R7, R261, D19). DESIGN CHOICE 0, unsafe (log 3). -/
def entry : Word := 0

/-- The default of `EOF_VALUE` (R7, R222, D11): 0xFFFFFFFF (log 5). -/
def eofValue : Word := 0xFFFFFFFF

end Sys2Proof.Config
end

