-- ==== Sys2Proof/Machine/State.lean ====
section
/-! DEFINITION. The state of the machine as plain data: the core's state (spec/10_state.md R20), the memory and streams
behind its ports (R32, R33, R35), the observer outputs and counters (R34), the OPEN parameters of spec/00_scope.md R7,
and the state after reset (R38). -/

namespace Sys2Proof.Machine

/-- The request kinds of the memory port (R35, R51). -/
inductive AccessKind where
  | fetch | load | store
  deriving DecidableEq, Repr

/-- The access widths (R7, R60): 1, 2 and 4 bytes. -/
inductive Width where
  | one | two | four
  deriving DecidableEq, Repr

/-- The run states (R28). -/
inductive RunState where
  | running | halted
  deriving DecidableEq, Repr

/-- The names of the halt causes (R230). -/
inductive Cause where
  | exit | illegalInstruction | memoryFault | unrecognizedSyscall | budgetExhausted
  deriving DecidableEq, Repr

/-- The halt record: a cause with its `info` (R29, R231). `instrAt` is the field the spec calls `at`, `steps` is
`instret` at the time. -/
inductive HaltRecord where
  | exit (n instrAt : Word)
  | illegalInstruction (instrAt w : Word) (steps : Nat)
  /-- `w` is absent when `kind` is fetch (R231). -/
  | memoryFault (kind : AccessKind) (addr : Word) (n : Width) (instrAt : Word) (w : Option Word) (steps : Nat)
  | unrecognizedSyscall (n instrAt w : Word) (steps : Nat)
  | budgetExhausted (instrAt : Word) (steps : Nat)
  deriving DecidableEq, Repr

/-- The per-step observer outputs (R34). `taken` is `none` when it is not driven: it is "meaningful only when ctrl = 1"
(R34) and an error "drives no taken" (R236). Kept as state between steps: DESIGN CHOICE, safe (log 9). -/
structure Observer where
  retire : Bool
  stepPc : Word
  stepW : Word
  ctrl : Bool
  taken : Option Bool
  deriving DecidableEq, Repr

/-- Requests of one kind and width the memory refuses, at the addresses `first` to `last` (R51). -/
structure RefusedRange where
  kind : AccessKind
  width : Width
  first : Word
  last : Word
  deriving DecidableEq, Repr

/-- The part of `MemAdmit` (R51) that is not `Mapped`: whether alignment is enforced (R58), and what else is refused.
With `Mapped` it gives every admission function whose admitted bytes are mapped: DESIGN CHOICE, safe (log 2). -/
structure AdmitPolicy where
  enforceAlignment : Bool
  refused : List RefusedRange
  deriving DecidableEq, Repr

/-- The OPEN parameters that stay in force during a run (R7). No step changes them. -/
structure Params where
  eofValue : Word
  budget : Option Nat
  policy : AdmitPolicy
  deriving DecidableEq, Repr

/-- The memory: bytes by address, strictly rising addresses below 2^32 (`Memory.wf`, Machine/Ops.lean). The listed
addresses are the set `Mapped` of R59; an address that is not listed is not mapped and has no value (log 1). -/
abbrev Memory := List Host.Cell

/-- The whole state. `regs` is x[1] to x[31]; x[0] is hardwired and has no storage (R21). -/
structure State where
  regs : Vector Word 31
  pc : Word
  run : RunState
  halt : Option HaltRecord
  mem : Memory
  input : List Byte
  inputEnded : Bool
  output : List Byte
  instret : Nat
  nTaken : Nat
  nNotTaken : Nat
  obs : Observer
  params : Params
  deriving DecidableEq, Repr

/-- Why there is no next state. -/
inductive Fault where
  /-- Raised by `step` on a Halted core, which "takes no step" (R28). Safe: nothing happens after a halt (log 6). -/
  | halted
  deriving DecidableEq, Repr

/-- Why an instruction is refused. -/
inductive Refusal where
  /-- Raised by an arm of `exec` that has no meaning yet; no arm is left without one. Safe. -/
  | notModelled (mnemonic : String)
  deriving DecidableEq, Repr

/-- What a meaning answers. -/
abbrev Result := Host.Outcome State Fault Refusal

/-- The reference memory's policy (R59): alignment not enforced, nothing refused but what is not mapped. -/
def AdmitPolicy.reference : AdmitPolicy := { enforceAlignment := false, refused := [] }

/-- The defaults of R7. -/
def Params.default : Params := { eofValue := Config.eofValue, budget := none, policy := AdmitPolicy.reference }

/-- The observer outputs before the first step: DESIGN CHOICE, unsafe (log 9). -/
def Observer.initial : Observer := { retire := false, stepPc := 0, stepW := 0, ctrl := false, taken := none }

/-- The state after reset (R38, R260): all registers zero, `pc` = `ENTRY`, Running, no cause, counters zero, output
empty; memory, input stream and parameters as the host and the loader give them. -/
def State.resetWith (entry : Word) (m0 : Memory) (input : List Byte) (inputEnded : Bool) (params : Params) : State :=
  { regs := Vector.replicate 31 0
    pc := entry
    run := .running
    halt := none
    mem := m0
    input := input
    inputEnded := inputEnded
    output := []
    instret := 0
    nTaken := 0
    nNotTaken := 0
    obs := Observer.initial
    params := params }

/-- The state after reset with nothing supplied: no memory mapped, no input, the default parameters. DESIGN CHOICE,
unsafe (log 3, log 4). -/
def State.reset : State := State.resetWith Config.entry [] [] true Params.default

end Sys2Proof.Machine
end

