-- ==== Sys2Proof/Machine/Ops.lean ====
section
/-! DEFINITION. The operations every meaning is made of: the register file (spec/10_state.md R21, R22), the memory port
(spec/20_memory.md R51 to R55), the ends of a step that completes (R26, R34), and the ways a run ends
(spec/60_exceptions.md R230 to R239), taking an error (`raise`, R236) the one shared by all. -/

namespace Sys2Proof.Machine

/-! ### Registers -/

/-- `x[r]`: x[0] reads 0 (R21). -/
def State.reg (s : State) (r : RegIdx) : Word :=
  if h : r = 0#5 then 0#32
  else s.regs[r.toNat - 1]'(by
    have : r.toNat ≠ 0 := fun h0 => h (BitVec.eq_of_toNat_eq h0)
    have := r.isLt
    omega)

/-- `x[r] <- v`: a write to x[0] is discarded (R22). -/
def State.setReg (s : State) (r : RegIdx) (v : Word) : State :=
  if h : r = 0#5 then s
  else { s with regs := s.regs.set (r.toNat - 1) v (by
    have : r.toNat ≠ 0 := fun h0 => h (BitVec.eq_of_toNat_eq h0)
    have := r.isLt
    omega) }

/-! ### One field at a time -/

/-- `pc <- x`, the address of the next step (R26). -/
def State.setPc (s : State) (x : Word) : State := { s with pc := x }

/-- The memory after a write (R53). -/
def State.setMem (s : State) (m : Memory) : State := { s with mem := m }

/-- The input stream after a byte is consumed (R32). -/
def State.setInput (s : State) (l : List Byte) : State := { s with input := l }

/-- The output stream after a byte is written (R33). -/
def State.setOutput (s : State) (l : List Byte) : State := { s with output := l }

/-! ### Memory -/

/-- The canonical form: strictly rising addresses, all below 2^32. -/
abbrev Memory.wf (m : Memory) : Prop :=
  m.Pairwise (fun c d => c.1 < d.1) ∧ ∀ c ∈ m, c.1 < 2 ^ 32

/-- The byte at an address, or nothing where none is mapped. -/
def Memory.byteAt : Memory → Nat → Option Byte
  | [], _ => none
  | (k, b) :: m, a => if k = a then some b else Memory.byteAt m a

/-- The memory with byte `b` at address `a`, in canonical form. -/
def Memory.put : Memory → Nat → Byte → Memory
  | [], a, b => [(a, b)]
  | (k, c) :: m, a, b =>
    if a < k then (a, b) :: (k, c) :: m
    else if a = k then (a, b) :: m
    else (k, c) :: Memory.put m a b

/-- The width in bytes (R60). -/
def Width.bytes : Width → Nat
  | .one => 1
  | .two => 2
  | .four => 4

/-- The `n` bytes at `addr`, `addr + 1`, ..., each address modulo 2^32 (R52); nothing unless all are mapped (R59). -/
def Memory.bytesAt (m : Memory) (addr : Word) : Nat → Option (List Byte)
  | 0 => some []
  | n + 1 =>
    match m.byteAt addr.toNat, Memory.bytesAt m (addr + 1#32) n with
    | some b, some bs => some (b :: bs)
    | _, _ => none

/-- The memory with the bytes at `addr`, `addr + 1`, ..., each address modulo 2^32 (R53). -/
def Memory.putBytes (m : Memory) (addr : Word) : List Byte → Memory
  | [] => m
  | b :: bs => Memory.putBytes (m.put addr.toNat b) (addr + 1#32) bs

/-- The unsigned value of bytes in memory's order: the first is bits 7:0 (R55). -/
def leValue : List Byte → Word
  | [] => 0#32
  | b :: bs => leValue bs <<< 8 ||| b.setWidth 32

/-- The low `n` bytes of a value in memory's order: bits 7:0 first (R55). -/
def leBytes (v : Word) : Nat → List Byte
  | 0 => []
  | n + 1 => v.setWidth 8 :: leBytes (v >>> 8) n

/-- Whether a refused range covers a request. -/
def RefusedRange.covers (r : RefusedRange) (kind : AccessKind) (addr : Word) (n : Width) : Bool :=
  decide (r.kind = kind) && decide (r.width = n) && decide (r.first ≤ addr) && decide (addr ≤ r.last)

/-- Whether the memory's policy admits a request to mapped bytes (R51, R58). -/
def AdmitPolicy.admits (p : AdmitPolicy) (kind : AccessKind) (addr : Word) (n : Width) : Bool :=
  (!p.enforceAlignment || addr.toNat % n.bytes == 0) && !p.refused.any (fun r => r.covers kind addr n)

/-- `MemAdmit(kind, addr, n)` (R51): all the bytes are mapped (R59) and the policy admits the request. -/
def State.memAdmit (s : State) (kind : AccessKind) (addr : Word) (n : Width) : Bool :=
  s.params.policy.admits kind addr n && (s.mem.bytesAt addr n.bytes).isSome

/-- `MemRead` (R52) and `Fetch` (R54): the unsigned value of the `n` bytes, or nothing where the request is refused. -/
def State.memRead (s : State) (kind : AccessKind) (addr : Word) (n : Width) : Option Word :=
  if s.params.policy.admits kind addr n then (s.mem.bytesAt addr n.bytes).map leValue else none

/-- `MemWrite` (R53): the low `n` bytes of `v` replace the bytes at `addr`; nothing where the request is refused. -/
def State.memWrite (s : State) (addr : Word) (n : Width) (v : Word) : Option State :=
  if s.memAdmit .store addr n then some (s.setMem (s.mem.putBytes addr (leBytes v n.bytes))) else none

/-- `Fetch(pc)` (R54). -/
def State.fetch (s : State) : Option Word := s.memRead .fetch s.pc .four

/-! ### Completing a step -/

/-- `pc <- pc + 4` (R26). -/
def State.advance (s : State) : State := s.setPc (s.pc + 4#32)

/-- The observer outputs of a fetched step before it completes: its address and word (R34, R36). -/
def State.drive (s : State) (w : Word) : State :=
  { s with obs := { retire := false, stepPc := s.pc, stepW := w, ctrl := false, taken := none } }

/-- The outputs of a step that does not complete an instruction: `retire` 0, no `taken` (R34, R236). -/
def State.noRetire (s : State) : State :=
  { s with obs := { s.obs with retire := false, ctrl := false, taken := none } }

/-- An instruction that is no control transfer completes: `retire` 1, `ctrl` 0, one more in `instret` (R34). -/
def State.retire (s : State) : State :=
  { s with instret := s.instret + 1, obs := { s.obs with retire := true, ctrl := false, taken := none } }

/-- A control transfer completes: `retire` 1, `ctrl` 1, `taken`, and the counters (R34). -/
def State.retireTransfer (s : State) (taken : Bool) : State :=
  { s with
    instret := s.instret + 1
    nTaken := if taken then s.nTaken + 1 else s.nTaken
    nNotTaken := if taken then s.nNotTaken else s.nNotTaken + 1
    obs := { s.obs with retire := true, ctrl := true, taken := some taken } }

/-- The end of an instruction whose one effect is `x[rd] <- v`. -/
def writeback (rd : RegIdx) (v : Word) (s : State) : Result := .next (s.setReg rd v).advance.retire

/-! ### Ending a run -/

/-- The cause in a halt record (R230). -/
def HaltRecord.cause : HaltRecord → Cause
  | .exit _ _ => .exit
  | .illegalInstruction _ _ _ => .illegalInstruction
  | .memoryFault _ _ _ _ _ _ => .memoryFault
  | .unrecognizedSyscall _ _ _ _ => .unrecognizedSyscall
  | .budgetExhausted _ _ => .budgetExhausted

/-- The codes of R230 (D14). -/
def Cause.code : Cause → Nat
  | .exit => 0
  | .illegalInstruction => 1
  | .memoryFault => 2
  | .unrecognizedSyscall => 3
  | .budgetExhausted => 4

/-- The core halts with a record: `run` Halted, `cause` and `info` set, `retire` 0 (R28, R29, R34). -/
def State.haltWith (s : State) (r : HaltRecord) : State := { s.noRetire with run := .halted, halt := some r }

/-- `raise K(info)` (R236), the one way an error is taken: nothing the step would have written is written and `pc` keeps
the address of the instruction. There is no handler and no return (R241, R242): only reset leaves Halted. -/
def raise (r : HaltRecord) (s : State) : Result := .next (s.haltWith r)

/-- MemoryFault on a data access of the instruction in execution (R231, R233). -/
def raiseMemoryFault (kind : AccessKind) (addr : Word) (n : Width) (s : State) : Result :=
  raise (.memoryFault kind addr n s.pc (some s.obs.stepW) s.instret) s

/-- MemoryFault on the fetch: no word is recorded (R231, R233). -/
def raiseFetchFault (s : State) : Result := raise (.memoryFault .fetch s.pc .four s.pc none s.instret) s

/-- IllegalInstruction for the word in execution (R231, R232). -/
def raiseIllegal (s : State) : Result := raise (.illegalInstruction s.pc s.obs.stepW s.instret) s

/-- Whether the step budget is used up: `STEP_BUDGET` is given and equals `instret` (R36, R239). -/
def State.budgetReached (s : State) : Bool := decide (s.params.budget = some s.instret)

/-- `halt BudgetExhausted`: nothing is fetched and nothing else changes (R239). -/
def haltBudget (s : State) : Result := .next (s.haltWith (.budgetExhausted s.pc s.instret))

/-- `halt Exit(n)`: `pc <- pc + 4`, then Halted; the record holds the address of the ecall (R231, R238). -/
def haltExit (n : Word) (s : State) : Result := .next (s.advance.haltWith (.exit n s.pc))

/-! ### A word placed for the next fetch -/

/-- A policy that admits the fetch at `pc`: the state's own where it does, the reference memory's otherwise. -/
def State.fetchPolicy (s : State) : AdmitPolicy :=
  if s.params.policy.admits .fetch s.pc .four then s.params.policy else AdmitPolicy.reference

/-- The state with the word `w` at `pc` and nothing in the way of fetching it: Running, the budget not used up, the
fetch admitted. It stands for the host's load of a program (R262; log 13). -/
def State.placeWord (s : State) (w : Word) : State :=
  { s with
    run := .running
    halt := none
    mem := s.mem.putBytes s.pc (leBytes w 4)
    params := { s.params with
      budget := if s.budgetReached then none else s.params.budget
      policy := s.fetchPolicy } }

end Sys2Proof.Machine
end

