-- ==== Sys2Proof/Machine/AluImm.lean ====
section
/-! DEFINITION. The register-immediate ALU instructions (spec/42_alu_imm.md). The immediate arrives sign-extended. -/

namespace Sys2Proof.Machine

/-- addi (R161). -/
def execAddi (rd rs1 : RegIdx) (imm : Word) (s : State) : Result := writeback rd (s.reg rs1 + imm) s

/-- slli (R162). -/
def execSlli (rd rs1 : RegIdx) (shamt : BitVec 5) (s : State) : Result := writeback rd (shiftLeft (s.reg rs1) shamt.toNat) s

/-- slti (R163). -/
def execSlti (rd rs1 : RegIdx) (imm : Word) (s : State) : Result := writeback rd (boolWord (lessSigned (s.reg rs1) imm)) s

/-- sltiu (R164). -/
def execSltiu (rd rs1 : RegIdx) (imm : Word) (s : State) : Result := writeback rd (boolWord (lessUnsigned (s.reg rs1) imm)) s

/-- xori (R165). -/
def execXori (rd rs1 : RegIdx) (imm : Word) (s : State) : Result := writeback rd (s.reg rs1 ^^^ imm) s

/-- srli (R166). -/
def execSrli (rd rs1 : RegIdx) (shamt : BitVec 5) (s : State) : Result := writeback rd (shiftRight (s.reg rs1) shamt.toNat) s

/-- srai (R167). -/
def execSrai (rd rs1 : RegIdx) (shamt : BitVec 5) (s : State) : Result := writeback rd (shiftRightArith (s.reg rs1) shamt.toNat) s

/-- ori (R168). -/
def execOri (rd rs1 : RegIdx) (imm : Word) (s : State) : Result := writeback rd (s.reg rs1 ||| imm) s

/-- andi (R169). -/
def execAndi (rd rs1 : RegIdx) (imm : Word) (s : State) : Result := writeback rd (s.reg rs1 &&& imm) s

end Sys2Proof.Machine
end

