-- ==== Sys2Proof/Machine/AluReg.lean ====
section
/-! DEFINITION. The register-register ALU instructions (spec/40_alu_reg.md). `rs1` is the left operand and the value
shifted, `rs2` the right operand and the amount (R130). -/

namespace Sys2Proof.Machine

/-- add (R120). -/
def execAdd (rd rs1 rs2 : RegIdx) (s : State) : Result := writeback rd (s.reg rs1 + s.reg rs2) s

/-- sub (R121). -/
def execSub (rd rs1 rs2 : RegIdx) (s : State) : Result := writeback rd (s.reg rs1 - s.reg rs2) s

/-- sll (R122). -/
def execSll (rd rs1 rs2 : RegIdx) (s : State) : Result := writeback rd (shiftLeft (s.reg rs1) (shiftAmount (s.reg rs2))) s

/-- slt (R123). -/
def execSlt (rd rs1 rs2 : RegIdx) (s : State) : Result := writeback rd (boolWord (lessSigned (s.reg rs1) (s.reg rs2))) s

/-- sltu (R124). -/
def execSltu (rd rs1 rs2 : RegIdx) (s : State) : Result := writeback rd (boolWord (lessUnsigned (s.reg rs1) (s.reg rs2))) s

/-- xor (R125). -/
def execXor (rd rs1 rs2 : RegIdx) (s : State) : Result := writeback rd (s.reg rs1 ^^^ s.reg rs2) s

/-- srl (R126). -/
def execSrl (rd rs1 rs2 : RegIdx) (s : State) : Result := writeback rd (shiftRight (s.reg rs1) (shiftAmount (s.reg rs2))) s

/-- sra (R127). -/
def execSra (rd rs1 rs2 : RegIdx) (s : State) : Result := writeback rd (shiftRightArith (s.reg rs1) (shiftAmount (s.reg rs2))) s

/-- or (R128). -/
def execOr (rd rs1 rs2 : RegIdx) (s : State) : Result := writeback rd (s.reg rs1 ||| s.reg rs2) s

/-- and (R129). -/
def execAnd (rd rs1 rs2 : RegIdx) (s : State) : Result := writeback rd (s.reg rs1 &&& s.reg rs2) s

end Sys2Proof.Machine
end

