-- ==== Sys2Proof/Machine/Branch.lean ====
section
/-! DEFINITION. The conditional branches (spec/45_branch.md). `rs1` is the left side of the comparison (R208). -/

namespace Sys2Proof.Machine

/-- What every branch does with its condition (R200): `pc + imm` when it holds, `pc + 4` when not, and `taken` is the
condition. The target is not checked (R207). -/
def branchIf (c : Bool) (imm : Word) (s : State) : Result :=
  .next ((s.setPc (if c then s.pc + imm else s.pc + 4#32)).retireTransfer c)

/-- beq (R201). -/
def execBeq (rs1 rs2 : RegIdx) (imm : Word) (s : State) : Result := branchIf (decide (s.reg rs1 = s.reg rs2)) imm s

/-- bne (R202). -/
def execBne (rs1 rs2 : RegIdx) (imm : Word) (s : State) : Result := branchIf (!decide (s.reg rs1 = s.reg rs2)) imm s

/-- blt (R203). -/
def execBlt (rs1 rs2 : RegIdx) (imm : Word) (s : State) : Result := branchIf (lessSigned (s.reg rs1) (s.reg rs2)) imm s

/-- bge (R204). -/
def execBge (rs1 rs2 : RegIdx) (imm : Word) (s : State) : Result := branchIf (!lessSigned (s.reg rs1) (s.reg rs2)) imm s

/-- bltu (R205). -/
def execBltu (rs1 rs2 : RegIdx) (imm : Word) (s : State) : Result := branchIf (lessUnsigned (s.reg rs1) (s.reg rs2)) imm s

/-- bgeu (R206). -/
def execBgeu (rs1 rs2 : RegIdx) (imm : Word) (s : State) : Result := branchIf (!lessUnsigned (s.reg rs1) (s.reg rs2)) imm s

end Sys2Proof.Machine
end

