-- ==== Sys2Proof/Machine/Ecall.lean ====
section
/-! DEFINITION. The environment call (spec/48_ecall.md) and the two character ports it uses (spec/10_state.md R32, R33). -/

namespace Sys2Proof.Machine

/-- `GetChar()` (R32): the next byte, zero-extended and consumed; `EOF_VALUE` at the end of the input; nothing where no
byte is available and the input has not ended. -/
def getChar (s : State) : Option (Word × State) :=
  match s.input with
  | b :: rest => some (b.setWidth 32, s.setInput rest)
  | [] => if s.inputEnded then some (s.params.eofValue, s) else none

/-- `PutChar(b)` (R33): the byte goes to the end of the output stream, which is always ready (log 8). -/
def putChar (b : Byte) (s : State) : State := s.setOutput (s.output ++ [b])

/-- Call 1 (R222). Where the input holds, the step does not complete and nothing changes but that `retire` is 0 (R32,
R250; log 7). -/
def ecallRead (s : State) : Result :=
  match getChar s with
  | some (v, t) => writeback ecallRetReg v t
  | none => .next s.noRetire

/-- Call 2 (R223). -/
def ecallWrite (s : State) : Result :=
  .next (putChar ((s.reg ecallRetReg).setWidth 8) s).advance.retire

/-- Any other call number (R225). -/
def ecallUnknown (n : Word) (s : State) : Result :=
  raise (.unrecognizedSyscall n s.pc s.obs.stepW s.instret) s

/-- The service of call `n`: the whole 32-bit value is compared (R220). -/
def ecallService (n : Word) (s : State) : Result :=
  if n = callRead then ecallRead s
  else if n = callWrite then ecallWrite s
  else if n = callExit ∨ n = callExit93 then haltExit n s
  else ecallUnknown n s

/-- ecall (R220). -/
def execEcall (s : State) : Result := ecallService (s.reg ecallNumReg) s

end Sys2Proof.Machine
end

