-- ==== Sys2Proof/Machine/Jump.lean ====
section
/-! DEFINITION. The jumps (spec/47_jump.md). -/

namespace Sys2Proof.Machine

/-- What both jumps do with their target: `x[rd] <- pc + 4`, `pc <- target`, `taken` 1 (R215, R216, R217). The target was
computed from the state before the step (R37, D24). -/
def jumpTo (rd : RegIdx) (target : Word) (s : State) : Result :=
  .next (((s.setReg rd (s.pc + 4#32)).setPc target).retireTransfer true)

/-- jal (R215). -/
def execJal (rd : RegIdx) (imm : Word) (s : State) : Result := jumpTo rd (s.pc + imm) s

/-- jalr (R216). -/
def execJalr (rd rs1 : RegIdx) (imm : Word) (s : State) : Result := jumpTo rd (jalrTarget (s.reg rs1) imm) s

end Sys2Proof.Machine
end

