-- ==== Sys2Proof/Machine/Load.lean ====
section
/-! DEFINITION. The loads (spec/43_load.md). -/

namespace Sys2Proof.Machine

/-- What every load does (R180): `MemRead(ea, n)`, the value extended into `x[rd]`, `pc + 4`; a refused read is
MemoryFault. The read is made whatever `rd` is. -/
def loadAt (rd : RegIdx) (ea : Word) (n : Width) (extend : Word → Word) (s : State) : Result :=
  match s.memRead .load ea n with
  | none => raiseMemoryFault .load ea n s
  | some v => writeback rd (extend v) s

/-- lb (R181). -/
def execLb (rd rs1 : RegIdx) (imm : Word) (s : State) : Result :=
  loadAt rd (effAddr (s.reg rs1) imm) .one sextByte s

/-- lh (R182). -/
def execLh (rd rs1 : RegIdx) (imm : Word) (s : State) : Result :=
  loadAt rd (effAddr (s.reg rs1) imm) .two sextHalf s

/-- lw (R183). -/
def execLw (rd rs1 : RegIdx) (imm : Word) (s : State) : Result :=
  loadAt rd (effAddr (s.reg rs1) imm) .four id s

/-- lbu (R184). -/
def execLbu (rd rs1 : RegIdx) (imm : Word) (s : State) : Result :=
  loadAt rd (effAddr (s.reg rs1) imm) .one zextByte s

/-- lhu (R185). -/
def execLhu (rd rs1 : RegIdx) (imm : Word) (s : State) : Result :=
  loadAt rd (effAddr (s.reg rs1) imm) .two zextHalf s

end Sys2Proof.Machine
end

