-- ==== Sys2Proof/Machine/MulDiv.lean ====
section
/-! DEFINITION. The multiply and divide instructions (spec/41_muldiv.md). `rs1` is the multiplicand or dividend, `rs2` the
multiplier or divisor (R151). None can fault (R150). -/

namespace Sys2Proof.Machine

/-- mul (R140). -/
def execMul (rd rs1 rs2 : RegIdx) (s : State) : Result := writeback rd (mulLow (s.reg rs1) (s.reg rs2)) s

/-- mulh (R141). -/
def execMulh (rd rs1 rs2 : RegIdx) (s : State) : Result := writeback rd (mulHighSigned (s.reg rs1) (s.reg rs2)) s

/-- mulhsu (R142). -/
def execMulhsu (rd rs1 rs2 : RegIdx) (s : State) : Result := writeback rd (mulHighSignedUnsigned (s.reg rs1) (s.reg rs2)) s

/-- mulhu (R143). -/
def execMulhu (rd rs1 rs2 : RegIdx) (s : State) : Result := writeback rd (mulHighUnsigned (s.reg rs1) (s.reg rs2)) s

/-- div (R144). -/
def execDiv (rd rs1 rs2 : RegIdx) (s : State) : Result := writeback rd (divSigned (s.reg rs1) (s.reg rs2)) s

/-- divu (R145). -/
def execDivu (rd rs1 rs2 : RegIdx) (s : State) : Result := writeback rd (divUnsigned (s.reg rs1) (s.reg rs2)) s

/-- rem (R146). -/
def execRem (rd rs1 rs2 : RegIdx) (s : State) : Result := writeback rd (remSigned (s.reg rs1) (s.reg rs2)) s

/-- remu (R147). -/
def execRemu (rd rs1 rs2 : RegIdx) (s : State) : Result := writeback rd (remUnsigned (s.reg rs1) (s.reg rs2)) s

end Sys2Proof.Machine
end

