-- ==== Sys2Proof/Machine/Store.lean ====
section
/-! DEFINITION. The stores (spec/44_store.md). `rs1` is the base, `rs2` the data (R190). -/

namespace Sys2Proof.Machine

/-- What every store does (R190): `MemWrite(ea, n, v)`, then `pc + 4`; a refused write is MemoryFault. -/
def storeAt (ea : Word) (n : Width) (v : Word) (s : State) : Result :=
  match s.memWrite ea n v with
  | none => raiseMemoryFault .store ea n s
  | some t => .next t.advance.retire

/-- sb (R191). -/
def execSb (rs1 rs2 : RegIdx) (imm : Word) (s : State) : Result :=
  storeAt (effAddr (s.reg rs1) imm) .one (s.reg rs2) s

/-- sh (R192). -/
def execSh (rs1 rs2 : RegIdx) (imm : Word) (s : State) : Result :=
  storeAt (effAddr (s.reg rs1) imm) .two (s.reg rs2) s

/-- sw (R193). -/
def execSw (rs1 rs2 : RegIdx) (imm : Word) (s : State) : Result :=
  storeAt (effAddr (s.reg rs1) imm) .four (s.reg rs2) s

end Sys2Proof.Machine
end

