-- ==== Sys2Proof/Machine/UpperImm.lean ====
section
/-! DEFINITION. The upper-immediate instructions (spec/46_upper_imm.md). -/

namespace Sys2Proof.Machine

/-- lui (R210). -/
def execLui (rd : RegIdx) (imm : Word) (s : State) : Result := writeback rd (upperImm imm) s

/-- auipc (R211): `pc` is the address of the auipc itself (R25). -/
def execAuipc (rd : RegIdx) (imm : Word) (s : State) : Result := writeback rd (s.pc + upperImm imm) s

end Sys2Proof.Machine
end

