-- ==== Sys2Proof/Machine/Step.lean ====
section
/-! DEFINITION. One step of the machine (spec/10_state.md R36, R37) and the load of one word for the host's checks. -/

namespace Sys2Proof.Machine

/-- A fetched word is decoded and executed, or is an illegal instruction (R36 lines 3 to 7). `s` already drives the
step's address and word. -/
def runWord (w : Word) (s : State) : Host.Outcome State Fault Refusal :=
  match decode w with
  | .ok i => exec i s
  | .error _ => raiseIllegal s

/-- One step (R36), in the order of R237: a Halted core takes none (R28); the budget; the fetch; the routing; the
instruction. -/
def step (s : State) : Host.Outcome State Fault Refusal :=
  match s.run with
  | .halted => .fault .halted
  | .running =>
    if s.budgetReached then haltBudget s
    else
      match s.fetch with
      | none => raiseFetchFault s
      | some w => runWord w (s.drive w)

/-- `s` with the instruction whose bits are the low `nbits` bits of `w` where `step` fetches next, and nothing in the way
of fetching it (log 13). -/
def State.withFetchWord (s : State) (nbits w : Nat) : State := s.placeWord (BitVec.ofNat 32 (w % 2 ^ nbits))

end Sys2Proof.Machine
end

