-- ==== Sys2Proof/Machine/HostPort.lean ====
section
/-! DEFINITION. What the host may do between steps (spec/10_state.md R32, R39, spec/70_reset_and_hazards.md R260): reset,
supply input, end the input. No step does any of these. -/

namespace Sys2Proof.Machine

/-- The reset port (R35, R260): `ENTRY` is presented and a new run begins. Registers, `pc`, run state, halt record,
counters and output take their values of R38; the host presents the input stream anew; memory and parameters are not
touched ("Reset does not write memory"). -/
def hostReset (entry : Word) (input : List Byte) (inputEnded : Bool) (s : State) : State :=
  State.resetWith entry s.mem input inputEnded s.params

/-- The host supplies one more input byte while the input has not ended (R32, R39). -/
def supplyInput (b : Byte) (s : State) : State :=
  if s.inputEnded then s else { s with input := s.input ++ [b] }

/-- The host ends the input stream (R32). -/
def endInput (s : State) : State := { s with inputEnded := true }

end Sys2Proof.Machine
end

