-- ==== Sys2Proof/Safety.lean ====
section
/-! DEFINITION. What counts as a safe run, in the terms the statements use. -/

namespace Sys2Proof.Machine

/-- The halt record names one of the three errors of spec/60_exceptions.md R230. -/
def HaltRecord.isError : HaltRecord → Bool
  | .illegalInstruction _ _ _ | .memoryFault _ _ _ _ _ _ | .unrecognizedSyscall _ _ _ _ => true
  | .exit _ _ | .budgetExhausted _ _ => false

/-- The one request an instruction makes of the data memory (R180 to R185, R190 to R193): kind, address, width. -/
def dataAccess (i : Instr) (s : State) : Option (AccessKind × Word × Width) :=
  match i with
  | .lb _ rs1 imm | .lbu _ rs1 imm => some (.load, s.reg rs1 + imm, .one)
  | .lh _ rs1 imm | .lhu _ rs1 imm => some (.load, s.reg rs1 + imm, .two)
  | .lw _ rs1 imm => some (.load, s.reg rs1 + imm, .four)
  | .sb rs1 _ imm => some (.store, s.reg rs1 + imm, .one)
  | .sh rs1 _ imm => some (.store, s.reg rs1 + imm, .two)
  | .sw rs1 _ imm => some (.store, s.reg rs1 + imm, .four)
  | _ => none

/-- The core has not ended its run with an error: it is Running, or Halted by an exit call or by the host's budget. -/
def State.errorFree (s : State) : Prop := ∀ r, s.halt = some r → r.isError = false

/-- The host data is in order: memory in canonical form, and a halt record exactly while Halted (R28, R29). -/
structure State.Ok (s : State) : Prop where
  memory : s.mem.wf
  record : s.run = .halted ↔ s.halt.isSome = true
  counters : s.nTaken + s.nNotTaken ≤ s.instret
  budget : ∀ n, s.params.budget = some n → s.instret ≤ n

end Sys2Proof.Machine
end

