-- ==== Sys2Proof/Certificates/Slice0/Obligations.lean ====
section
/-! DEFINITION. The statements about the model. `u(v)` of the spec is `toNat`, `s(v)` is `toInt`
(spec/00_scope.md R9). A conclusion `∃ t, exec i s = .next t ∧ …` is the completion of `i`, its result and its frame. -/

namespace Sys2Proof.Claims

open Sys2Proof.Machine

/-! ### What stays as it was -/

/-- Every byte of memory reads as before. -/
def SameMemory (s t : State) : Prop := ∀ a, t.mem.byteAt a = s.mem.byteAt a

/-- Every register reads as before. -/
def SameRegs (s t : State) : Prop := ∀ r, t.reg r = s.reg r

/-- Every register but `rd` reads as before. -/
def SameRegsBut (rd : RegIdx) (s t : State) : Prop := ∀ r, r ≠ rd → t.reg r = s.reg r

/-- Neither stream has moved. -/
def SameStreams (s t : State) : Prop := t.input = s.input ∧ t.inputEnded = s.inputEnded ∧ t.output = s.output

/-- Run state, halt record and parameters are as before. -/
def SameRun (s t : State) : Prop := t.run = s.run ∧ t.halt = s.halt ∧ t.params = s.params

/-- The three counters are as before. -/
def SameCounters (s t : State) : Prop := t.instret = s.instret ∧ t.nTaken = s.nTaken ∧ t.nNotTaken = s.nNotTaken

/-- The observer outputs with the step's own address and word (R34; held in State between steps: log 9). -/
def Outputs (retire ctrl : Bool) (taken : Option Bool) (s t : State) : Prop :=
  t.obs = { retire := retire, stepPc := s.obs.stepPc, stepW := s.obs.stepW, ctrl := ctrl, taken := taken }

/-! ### How a step ends -/

/-- An instruction that is no control transfer completes (R34; the counters are in State: log 10). -/
def Retired (s t : State) : Prop :=
  t.instret = s.instret + 1 ∧ t.nTaken = s.nTaken ∧ t.nNotTaken = s.nNotTaken ∧ Outputs true false none s t

/-- A control transfer completes, taken or not (R34). -/
def RetiredTransfer (c : Prop) [Decidable c] (s t : State) : Prop :=
  t.instret = s.instret + 1 ∧ t.nTaken = s.nTaken + (if c then 1 else 0) ∧
    t.nNotTaken = s.nNotTaken + (if c then 0 else 1) ∧ Outputs true true (some (decide c)) s t

/-- The core has halted with a record, and nothing else but `pc`, left open here, has changed (R28, R29, R236). That the
halt is a next state is log 12, that an error or exit step is not counted D18 (log 32). -/
def HaltedBy (r : HaltRecord) (s t : State) : Prop :=
  t.run = .halted ∧ t.halt = some r ∧ SameRegs s t ∧ SameMemory s t ∧ SameStreams s t ∧ SameCounters s t ∧
    t.params = s.params ∧ Outputs false false none s t

/-- `i` completes in `s` with `x[rd] <- v` (discarded for x[0]), `pc + 4`, and nothing else changed. -/
def Computes (i : Instr) (rd : RegIdx) (v : Word) (s : State) : Prop :=
  ∃ t, exec i s = .next t ∧ t.reg rd = (if rd = 0 then 0 else v) ∧ SameRegsBut rd s t ∧ t.pc = s.pc + 4 ∧
    SameMemory s t ∧ SameStreams s t ∧ SameRun s t ∧ Retired s t

/-- `i` completes in `s` as a branch with condition `c` and offset `imm` (R200). -/
def Branches (i : Instr) (c : Prop) [Decidable c] (imm : Word) (s : State) : Prop :=
  ∃ t, exec i s = .next t ∧ t.pc = (if c then s.pc + imm else s.pc + 4) ∧ SameRegs s t ∧ SameMemory s t ∧
    SameStreams s t ∧ SameRun s t ∧ RetiredTransfer c s t

/-- `i` completes in `s` as a jump to `target` with the link in `rd` (R215, R216). -/
def Jumps (i : Instr) (rd : RegIdx) (target : Word) (s : State) : Prop :=
  ∃ t, exec i s = .next t ∧ t.pc = target ∧ t.reg rd = (if rd = 0 then 0 else s.pc + 4) ∧ SameRegsBut rd s t ∧
    SameMemory s t ∧ SameStreams s t ∧ SameRun s t ∧ RetiredTransfer True s t

/-- `i` completes in `s` as a store of the low `n` bytes of `v` at `ea`, `ea + 1`, ... modulo 2^32 (R53, R55, R190). -/
def Stores (i : Instr) (ea : Word) (n : Nat) (v : Word) (s : State) : Prop :=
  ∃ t, exec i s = .next t ∧ (∀ k < n, t.mem.byteAt (ea + BitVec.ofNat 32 k).toNat = some (v.extractLsb' (8 * k) 8)) ∧
    (∀ a, (∀ k < n, a ≠ (ea + BitVec.ofNat 32 k).toNat) → t.mem.byteAt a = s.mem.byteAt a) ∧
    SameRegs s t ∧ t.pc = s.pc + 4 ∧ SameStreams s t ∧ SameRun s t ∧ Retired s t

/-- `i` raises an error in `s`: the record is set, the core is Halted, `pc` and everything else are as before (R236). -/
def Raises (i : Instr) (r : HaltRecord) (s : State) : Prop :=
  ∃ t, exec i s = .next t ∧ HaltedBy r s t ∧ t.pc = s.pc

/-- Four mapped bytes at `pc` that the policy admits for a fetch, as the word they hold (R54, R55). -/
def HoldsWord (s : State) (w : Word) : Prop :=
  ∃ b0 b1 b2 b3 : Byte, s.mem.byteAt s.pc.toNat = some b0 ∧ s.mem.byteAt (s.pc + 1).toNat = some b1 ∧
    s.mem.byteAt (s.pc + 2).toNat = some b2 ∧ s.mem.byteAt (s.pc + 3).toNat = some b3 ∧
    s.params.policy.admits .fetch s.pc .four = true ∧ w = b3 ++ b2 ++ b1 ++ b0

/-- The core may start an instruction: Running, and the budget is not used up (R36 line 1). -/
def Ready (s : State) : Prop := s.run = .running ∧ s.params.budget ≠ some s.instret

/-- The Illegal set, as R102 lists it. -/
def IllegalWord (w : Word) : Prop :=
  let op := w.toNat % 128
  let f3 := w.toNat / 2 ^ 12 % 8
  let f7 := w.toNat / 2 ^ 25
  op ∉ [0x33, 0x13, 0x03, 0x23, 0x63, 0x37, 0x17, 0x6F, 0x67, 0x73] ∨
    op = 0x33 ∧ (f7 ∉ [0x00, 0x20, 0x01] ∨ f7 = 0x20 ∧ f3 ∉ [0, 5]) ∨
    op = 0x03 ∧ f3 ∈ [3, 6, 7] ∨
    op = 0x23 ∧ f3 ∈ [3, 4, 5, 6, 7] ∨
    op = 0x63 ∧ f3 ∈ [2, 3] ∨
    op = 0x67 ∧ f3 ≠ 0 ∨
    op = 0x73 ∧ f3 ≠ 0

/-- The bits of a word that an instruction ignores (R101). -/
def ignoredBits : Instr → Word
  | .slli _ _ _ => 0xFE000000
  | .srli _ _ _ | .srai _ _ _ => 0xBE000000
  | .ecall => 0xFFFF8F80
  | _ => 0

/-- The register an instruction may write (R24). -/
def destination : Instr → Option RegIdx
  | .add rd _ _ | .sub rd _ _ | .sll rd _ _ | .slt rd _ _ | .sltu rd _ _ => some rd
  | .xor rd _ _ | .srl rd _ _ | .sra rd _ _ | .or rd _ _ | .and rd _ _ => some rd
  | .mul rd _ _ | .mulh rd _ _ | .mulhsu rd _ _ | .mulhu rd _ _ => some rd
  | .div rd _ _ | .divu rd _ _ | .rem rd _ _ | .remu rd _ _ => some rd
  | .addi rd _ _ | .slli rd _ _ | .slti rd _ _ | .sltiu rd _ _ | .xori rd _ _ => some rd
  | .srli rd _ _ | .srai rd _ _ | .ori rd _ _ | .andi rd _ _ => some rd
  | .lb rd _ _ | .lh rd _ _ | .lw rd _ _ | .lbu rd _ _ | .lhu rd _ _ => some rd
  | .lui rd _ | .auipc rd _ | .jal rd _ | .jalr rd _ _ => some rd
  | .sb _ _ _ | .sh _ _ _ | .sw _ _ _ => none
  | .beq _ _ _ | .bne _ _ _ | .blt _ _ _ | .bge _ _ _ | .bltu _ _ _ | .bgeu _ _ _ => none
  | .ecall => some 10

/-- The three stores. -/
def isStore : Instr → Bool
  | .sb _ _ _ | .sh _ _ _ | .sw _ _ _ => true
  | _ => false

/-- The condition of each of the five causes (R230 to R234, R237 to R239): what is true of the state `s` before the step
that halts with the record and of the state `t` after it. -/
def CauseHolds (s t : State) : HaltRecord → Prop
  | .exit n a =>
      a = s.pc ∧ (∃ w, HoldsWord s w ∧ decode w = .ok .ecall) ∧ n = s.reg 17 ∧ (n = 3 ∨ n = 93) ∧ t.pc = s.pc + 4
  | .illegalInstruction a w k => a = s.pc ∧ k = s.instret ∧ HoldsWord s w ∧ IllegalWord w
  | .memoryFault kind addr n a w k =>
      a = s.pc ∧ k = s.instret ∧ s.memAdmit kind addr n = false ∧
        (kind = .fetch → addr = s.pc ∧ n = .four ∧ w = none) ∧
        (kind ≠ .fetch → ∃ v i, w = some v ∧ HoldsWord s v ∧ decode v = .ok i ∧ dataAccess i s = some (kind, addr, n))
  | .unrecognizedSyscall n a w k =>
      a = s.pc ∧ k = s.instret ∧ HoldsWord s w ∧ decode w = .ok .ecall ∧ n = s.reg 17 ∧ n ∉ [1, 2, 3, 93]
  | .budgetExhausted a k => a = s.pc ∧ k = s.instret ∧ s.params.budget = some k

/-- An R-format word (R82). -/
abbrev wordR (f7 : BitVec 7) (rs2 rs1 : RegIdx) (f3 : BitVec 3) (rd : RegIdx) (op : BitVec 7) : Word :=
  f7 ++ rs2 ++ rs1 ++ f3 ++ rd ++ op

/-- An I-format word (R83). -/
abbrev wordI (imm : BitVec 12) (rs1 : RegIdx) (f3 : BitVec 3) (rd : RegIdx) (op : BitVec 7) : Word :=
  imm ++ rs1 ++ f3 ++ rd ++ op

/-- An S-format word (R84). -/
abbrev wordS (hi : BitVec 7) (rs2 rs1 : RegIdx) (f3 : BitVec 3) (lo : BitVec 5) (op : BitVec 7) : Word :=
  hi ++ rs2 ++ rs1 ++ f3 ++ lo ++ op

/-- A branch word: imm[12], imm[10:5], rs2, rs1, funct3, imm[4:1], imm[11], opcode 0x63 (R85). -/
abbrev wordB (b12 : BitVec 1) (b10 : BitVec 6) (rs2 rs1 : RegIdx) (f3 : BitVec 3) (b4 : BitVec 4) (b11 : BitVec 1) : Word :=
  b12 ++ b10 ++ rs2 ++ rs1 ++ f3 ++ b4 ++ b11 ++ 0b1100011#7

end Sys2Proof.Claims

open Sys2Proof Sys2Proof.Machine Sys2Proof.Claims

/-! ### Encoding and decoding -/

/-- The decoder inverts the encoder on every well-formed instruction, as a word and as four bytes followed by anything
(spec/30_encoding.md R80, R82 to R87, R92). Rests on the numbers of `funct3` the spec takes from general knowledge
(R91, D3 to D6) and on the byte order (D8). -/
def Obligations.DecodeInvertsEncode : Prop :=
  ∀ i : Instr, i.wf = true →
    decode (encode i) = .ok i ∧ ∀ rest, decodeBytes (bytesOfWord (encode i) ++ rest) = .ok (i, rest)

/-- What decodes is well formed, and the encoder gives the word back except for the bits R101 calls ignored. -/
def Obligations.EncodeInvertsDecodeUpToIgnoredBits : Prop :=
  ∀ (w : Word) (i : Instr), decode w = .ok i →
    i.wf = true ∧ w &&& ~~~ignoredBits i = encode i &&& ~~~ignoredBits i

/-- The two-level dispatch (R90, R93 to R96) and the mask table (R92) are the same routing: a word decodes to an
instruction of a row exactly when it matches the row. The `funct3` numbers are the spec's choice (R91, D3 to D6), as are
the bits the rows of the environment call and the immediate shifts leave open (D21, D22, log 34). -/
def Obligations.DispatchAgreesWithMaskTable : Prop :=
  ∀ (w : Word) (j : Instr),
    (w &&& j.row.mask = j.row.value) ↔ ∃ i, decode w = .ok i ∧ i.row = j.row

/-- The decoder refuses exactly the Illegal set of R102. Its `funct3` sets rest on D4, D5, D6; that no shift-immediate word
and no word with opcode 0x73 and `funct3` 0 is in it, whatever the other bits, on D22, D21 (log 34). -/
def Obligations.IllegalSetIsExact : Prop :=
  ∀ w : Word, IllegalWord w ↔ ∃ e, decode w = .error e

/-- Words that differ only in ignored bits decode to the same instruction (R101, R103; D21, D22). -/
def Obligations.IgnoredBitsDoNotMatter : Prop :=
  ∀ (w v : Word) (i : Instr), decode w = .ok i → w &&& ~~~ignoredBits i = v &&& ~~~ignoredBits i → decode v = .ok i

/-- R93: the inner dispatch under opcode 0x33, all seven bits of `funct7` compared. -/
def Obligations.RegisterOpcodeDispatch : Prop :=
  ∀ (rd rs1 rs2 : RegIdx) (f3 : BitVec 3),
    (∃ i ∈ [Instr.add rd rs1 rs2, .sll rd rs1 rs2, .slt rd rs1 rs2, .sltu rd rs1 rs2, .xor rd rs1 rs2, .srl rd rs1 rs2,
        .or rd rs1 rs2, .and rd rs1 rs2][f3.toNat]?, decode (wordR 0x00 rs2 rs1 f3 rd 0x33) = .ok i) ∧
    decode (wordR 0x20 rs2 rs1 0 rd 0x33) = .ok (.sub rd rs1 rs2) ∧
    decode (wordR 0x20 rs2 rs1 5 rd 0x33) = .ok (.sra rd rs1 rs2) ∧
    (f3 ≠ 0 → f3 ≠ 5 → ∃ e, decode (wordR 0x20 rs2 rs1 f3 rd 0x33) = .error e) ∧
    (∃ i ∈ [Instr.mul rd rs1 rs2, .mulh rd rs1 rs2, .mulhsu rd rs1 rs2, .mulhu rd rs1 rs2, .div rd rs1 rs2,
        .divu rd rs1 rs2, .rem rd rs1 rs2, .remu rd rs1 rs2][f3.toNat]?,
      decode (wordR 0x01 rs2 rs1 f3 rd 0x33) = .ok i) ∧
    (∀ f7 : BitVec 7, f7 ≠ 0x00 → f7 ≠ 0x20 → f7 ≠ 0x01 → ∃ e, decode (wordR f7 rs2 rs1 f3 rd 0x33) = .error e)

/-- R96: lui, auipc and jal on the opcode alone, the other 25 bits operands; jalr and the environment call only with
`funct3` 0. That every word with opcode 0x73 and `funct3` 0 is the environment call, whatever its other bits, is the
spec's own choice (R103, D21, log 34). -/
def Obligations.OpcodesWithoutInnerDispatch : Prop :=
  ∀ w : Word,
    (w.toNat % 128 = 0x37 → decode w = .ok (.lui (w.extractLsb' 7 5) ((w.extractLsb' 12 20).setWidth 32))) ∧
    (w.toNat % 128 = 0x17 → decode w = .ok (.auipc (w.extractLsb' 7 5) ((w.extractLsb' 12 20).setWidth 32))) ∧
    (w.toNat % 128 = 0x6F →
      decode w = .ok (.jal (w.extractLsb' 7 5) ((w.extractLsb' 31 1 ++ w.extractLsb' 12 8 ++ w.extractLsb' 20 1 ++
        w.extractLsb' 21 10 ++ 0#1 : BitVec 21).signExtend 32))) ∧
    (w.toNat % 128 = 0x67 → w.toNat / 2 ^ 12 % 8 = 0 →
      decode w = .ok (.jalr (w.extractLsb' 7 5) (w.extractLsb' 15 5) ((w.extractLsb' 20 12).signExtend 32))) ∧
    (w.toNat % 128 = 0x67 → w.toNat / 2 ^ 12 % 8 ≠ 0 → ∃ e, decode w = .error e) ∧
    (w.toNat % 128 = 0x73 → w.toNat / 2 ^ 12 % 8 = 0 → decode w = .ok .ecall) ∧
    (w.toNat % 128 = 0x73 → w.toNat / 2 ^ 12 % 8 ≠ 0 → ∃ e, decode w = .error e)

/-- R88: every format decoder is total (it is a function on words), unused fields are zero, sign extension is exact, and
B and J immediates have bit 0 equal to 0 for every word. -/
def Obligations.FormatDecodersContract : Prop :=
  ∀ w : Word,
    (fieldsR w).imm = 0 ∧
    ((fieldsI w).rs2 = 0 ∧ (fieldsI w).funct7 = 0) ∧
    ((fieldsS w).rd = 0 ∧ (fieldsS w).funct7 = 0) ∧
    ((fieldsB w).rd = 0 ∧ (fieldsB w).funct7 = 0) ∧
    ((fieldsU w).funct3 = 0 ∧ (fieldsU w).rs1 = 0 ∧ (fieldsU w).rs2 = 0 ∧ (fieldsU w).funct7 = 0) ∧
    ((fieldsJ w).funct3 = 0 ∧ (fieldsJ w).rs1 = 0 ∧ (fieldsJ w).rs2 = 0 ∧ (fieldsJ w).funct7 = 0) ∧
    (fieldsI w).imm.toInt = w.toInt / 2 ^ 20 ∧
    (fieldsS w).imm.toInt = w.toInt / 2 ^ 25 * 2 ^ 5 + (w.toNat / 2 ^ 7 % 2 ^ 5 : Nat) ∧
    (fieldsB w).imm.toInt =
      w.toInt / 2 ^ 31 * 2 ^ 12 + (w.toNat / 2 ^ 7 % 2 * 2 ^ 11 + w.toNat / 2 ^ 25 % 2 ^ 6 * 2 ^ 5 + w.toNat / 2 ^ 8 % 2 ^ 4 * 2 : Nat) ∧
    (fieldsU w).imm.toNat = w.toNat / 2 ^ 12 ∧
    (fieldsJ w).imm.toInt =
      w.toInt / 2 ^ 31 * 2 ^ 20 + (w.toNat / 2 ^ 12 % 2 ^ 8 * 2 ^ 12 + w.toNat / 2 ^ 20 % 2 * 2 ^ 11 + w.toNat / 2 ^ 21 % 2 ^ 10 * 2 : Nat) ∧
    (fieldsB w).imm.getLsbD 0 = false ∧ (fieldsJ w).imm.getLsbD 0 = false

/-- Words written from the spec's encodings, at least one of each family of R90, decode to their instructions (S2 with R83,
and the examples of R120, R121, R144, R167, R186, R193, R202, R210, R211, R215, R216, R220). The srai, lw, sw and bne words decode so under the `funct3` numbers the
spec takes from general knowledge (D3, D4, D5, D6, logs 21 to 24, PRESUMED). -/
def Obligations.ExampleWordsDecode : Prop :=
  decode 0x00100013 = .ok (.addi 0 0 1) ∧ decode 0x002081B3 = .ok (.add 3 1 2) ∧
  decode 0x402081B3 = .ok (.sub 3 1 2) ∧ decode 0x00001197 = .ok (.auipc 3 1) ∧
  decode 0x0220C1B3 = .ok (.div 3 1 2) ∧ decode 0x4040D193 = .ok (.srai 3 1 4) ∧
  decode 0xFFC0A183 = .ok (.lw 3 1 (-4)) ∧ decode 0xFE20AE23 = .ok (.sw 1 2 (-4)) ∧
  decode 0xFE209CE3 = .ok (.bne 1 2 (-8)) ∧ decode 0x000011B7 = .ok (.lui 3 1) ∧
  decode 0xFFDFF0EF = .ok (.jal 1 (-4)) ∧ decode 0xFFF302E7 = .ok (.jalr 5 6 (-1)) ∧ decode 0x00000073 = .ok .ecall

/-! ### The step -/

/-- A step runs the decoded instruction: when the core may start an instruction and the four bytes at `pc` hold a word
that decodes to `i`, the step is `exec i` on the state that drives the step's address and word (R34, R36). -/
def Obligations.StepRunsDecodedInstruction : Prop :=
  ∀ (s : State) (w : Word) (i : Instr), Ready s → HoldsWord s w → decode w = .ok i →
    step s = exec i { s with obs := { retire := false, stepPc := s.pc, stepW := w, ctrl := false, taken := none } }

/-- R28: reset gives Running; a Running core takes a step; a halt sets Halted; a Halted core takes none. R32, R39: the
host's supply appends its byte to the input while the input has not ended and changes nothing else, ending the input
changes that mark alone, so nothing the host does but reset sets Running again. That a Running core takes a step also
while call 1 holds for input is the model's own choice (log 7: R32 and I8 say that the step does not complete), and that
output never holds the core is too (log 8). -/
def Obligations.StepsExactlyWhileRunning : Prop :=
  (∀ entry input ended (s : State), (hostReset entry input ended s).run = .running) ∧
    (∀ s : State, s.run = .running → ∃ t, step s = .next t) ∧
    (∀ s t : State, s.halt = none → step s = .next t → (t.run = .halted ↔ t.halt ≠ none)) ∧
    (∀ s t : State, s.run = .halted → step s ≠ .next t) ∧
    (∀ b (s : State), s.inputEnded = false → supplyInput b s = { s with input := s.input ++ [b] }) ∧
    (∀ b (s : State), s.inputEnded = true → supplyInput b s = s) ∧
    (∀ s : State, endInput s = { s with inputEnded := true }) ∧
    (∀ b (s : State), (supplyInput b s).run = s.run ∧ (endInput s).run = s.run)

/-- The model's own answer to "takes no step" (R28): the step of a Halted core is the fault `halted` (log 6). -/
def Obligations.HaltedCoreAnswersFault : Prop := ∀ s : State, s.run = .halted → step s = .fault .halted

/-- The order of R237 (D16), the budget first: with the budget used up the core halts with BudgetExhausted whatever is
at `pc`, without fetching, and keeps everything (R239, D23). That the observer outputs `step_pc` and `step_w` keep the
values of the step before is the model's own choice (log 9). -/
def Obligations.BudgetIsCheckedFirst : Prop :=
  ∀ s : State, s.run = .running → s.params.budget = some s.instret →
    ∃ t, step s = .next t ∧ HaltedBy (.budgetExhausted s.pc s.instret) s t ∧ t.pc = s.pc

/-- R233 for the fetch, at its place in the order of R237 (D15, D16): a fetch the memory does not admit halts the core
with MemoryFault(fetch, pc, 4), no word recorded (R231), nothing changed. That the observer outputs `step_pc` and
`step_w` keep the values of the step before is the model's own choice (log 9): no rule says what they show. -/
def Obligations.RefusedFetchRaisesMemoryFault : Prop :=
  ∀ s : State, Ready s → s.memAdmit .fetch s.pc .four = false →
    ∃ t, step s = .next t ∧ HaltedBy (.memoryFault .fetch s.pc .four s.pc none s.instret) s t ∧ t.pc = s.pc

/-- R232: a fetched word of the Illegal set raises IllegalInstruction with its address, the word and the step count,
changing nothing (the Illegal set rests on D4 to D6, the unchanged state on D15, log 31). That the bytes at `pc` make the
word low byte first is D8 (log 26), the place after budget and fetch D16 (log 31), that the step is a next state log 12
and not counted D18 (log 32). -/
def Obligations.IllegalWordRaisesIllegalInstruction : Prop :=
  ∀ (s : State) (w : Word), Ready s → HoldsWord s w → IllegalWord w →
    ∃ t, step s = .next t ∧ t.run = .halted ∧ t.halt = some (.illegalInstruction s.pc w s.instret) ∧ t.pc = s.pc ∧
      SameRegs s t ∧ SameMemory s t ∧ SameStreams s t ∧ SameCounters s t ∧ t.params = s.params ∧
      t.obs = { retire := false, stepPc := s.pc, stepW := w, ctrl := false, taken := none }

/-- The model's own load of one word (log 13): from every state, Halted or out of budget or refusing the fetch included,
the step after `withFetchWord` runs the instruction the word decodes to, with the registers, `pc` and streams kept. -/
def Obligations.PlacedWordRunsNext : Prop :=
  ∀ (s : State) (w : Word) (i : Instr), decode w = .ok i →
    step (s.withFetchWord 32 w.toNat) = exec i ((s.withFetchWord 32 w.toNat).drive w) ∧
      SameRegs s (s.withFetchWord 32 w.toNat) ∧ (s.withFetchWord 32 w.toNat).pc = s.pc ∧
      SameStreams s (s.withFetchWord 32 w.toNat)

/-! ### Invariants and rules of the whole machine -/

/-- Every step keeps the machine's data in order: memory canonical, a halt record exactly while Halted, no more control
transfers than instructions, never more instructions than the budget (R28, R29, R34, R239). -/
def Obligations.StepKeepsStateOk : Prop :=
  ∀ s t : State, s.Ok → step s = .next t → t.Ok

/-- Every reset gives a state in order: from every entry, input stream, parameters and canonical memory, and by the
host's reset from every state whose memory is canonical (R38, R260). The canonical form is the model's own (log 1), and so
is a reset that keeps memory and parameters (log 14). -/
def Obligations.ResetStateIsOk : Prop :=
  (∀ entry m0 input ended params, m0.wf → (State.resetWith entry m0 input ended params).Ok) ∧
    (∀ entry input ended (s : State), s.mem.wf → (hostReset entry input ended s).Ok) ∧ State.reset.Ok

/-- R27 (its derived clause): from an even `pc` every step leaves an even `pc`. -/
def Obligations.EvenPcStaysEven : Prop :=
  ∀ s t : State, s.pc.getLsbD 0 = false → step s = .next t → t.pc.getLsbD 0 = false

/-- `Mapped` and the other parameters are fixed for the run (R51, R59, D9): no step maps or unmaps a byte or changes a
parameter. -/
def Obligations.StepKeepsMappedSetAndParameters : Prop :=
  ∀ s t : State, step s = .next t →
    t.params = s.params ∧ ∀ a, (t.mem.byteAt a).isSome = (s.mem.byteAt a).isSome

/-- R236 (D15): errors are precise. A step of a core without a halt record that ends with an error leaves registers,
memory, streams, counters and `pc` as they were, drives `retire` 0 and no `taken`. -/
def Obligations.ErrorsArePrecise : Prop :=
  ∀ (s t : State) (r : HaltRecord), s.halt = none → step s = .next t → t.halt = some r → r.isError = true →
    t.run = .halted ∧ t.pc = s.pc ∧ SameRegs s t ∧ SameMemory s t ∧ SameStreams s t ∧ SameCounters s t ∧
      t.params = s.params ∧ t.obs.retire = false ∧ t.obs.taken = none

/-- R230: a step of a core without a halt record that halts does so with a record whose cause is one of the five, and
says which: each only when its own condition holds, a MemoryFault of a load or store for that instruction's own access.
`pc + 4` after the exit is the spec's choice (D13, log 29; R224
advises against relying on it), x[17] as the call number D10 (log 27), the byte order of the word at `pc` D8 (log 26), the
Illegal set D4 to D6 (logs 22 to 24), the base of a store D7 (log 25), the wrap of addresses D20 (log 33), the order D16
(log 31), a halt as a next state log 12. -/
def Obligations.HaltCausesAreTheFive : Prop :=
  ∀ (s t : State) (r : HaltRecord), s.halt = none → step s = .next t → t.halt = some r →
    t.run = .halted ∧ CauseHolds s t r

/-- R21: x[0] reads 0 at every point; another register reads the value last written to it, or 0 after reset. -/
def Obligations.RegisterFileReads : Prop :=
  (∀ s : State, s.reg 0 = 0) ∧
    (∀ (s : State) (r : RegIdx) (v : Word), r ≠ 0 → (s.setReg r v).reg r = v) ∧
    (∀ (s : State) (r q : RegIdx) (v : Word), q ≠ r → (s.setReg r v).reg q = s.reg q) ∧
    (∀ entry m0 input ended params (r : RegIdx), (State.resetWith entry m0 input ended params).reg r = 0)

/-- R22 with R24: an instruction changes no register but its destination (x[10] for the environment call), and with
destination x[0] none at all. That the environment call writes x[10] is the spec's choice (R221, D10, log 27). -/
def Obligations.OnlyTheDestinationIsWritten : Prop :=
  ∀ (i : Instr) (s t : State) (r : RegIdx), exec i s = .next t → t.reg r ≠ s.reg r → destination i = some r ∧ r ≠ 0

/-- Only sb, sh and sw change memory (R50, R61). -/
def Obligations.OnlyStoresChangeMemory : Prop :=
  ∀ (i : Instr) (s t : State), exec i s = .next t → isStore i = false → SameMemory s t

/-- Only the environment call uses the character ports (R32, R33, R40): input is only consumed from the front, output
only grows at the end, and by one byte at most. -/
def Obligations.OnlyEcallUsesTheStreams : Prop :=
  ∀ (i : Instr) (s t : State), exec i s = .next t →
    (i ≠ .ecall → SameStreams s t) ∧ t.inputEnded = s.inputEnded ∧
      ((t.input = s.input ∧ t.output = s.output) ∨ (∃ b, s.input = b :: t.input ∧ t.output = s.output) ∨
        (∃ b, t.output = s.output ++ [b] ∧ t.input = s.input))

/-- R51, R58, R59 (D9, D25, D30). Under every policy an access is admitted exactly when its address is a multiple of
its width if alignment is enforced, no refused range holds its kind, width and address, and all its bytes, modulo 2^32,
are mapped; so the reference memory admits an access exactly when all its bytes are mapped, for every kind and whatever
its alignment. That an admission function is held as an alignment switch and refused ranges is the model's own (log 2). -/
def Obligations.ReferenceMemoryAdmitsMappedBytes : Prop :=
  (∀ (s : State) (kind : AccessKind) (addr : Word) (n : Width), s.params.policy = AdmitPolicy.reference →
    (s.memAdmit kind addr n = true ↔ ∀ k < n.bytes, (s.mem.byteAt (addr + BitVec.ofNat 32 k).toNat).isSome = true)) ∧
  (∀ (s : State) (kind : AccessKind) (addr : Word) (n : Width),
    s.memAdmit kind addr n = true ↔
      (s.params.policy.enforceAlignment = true → n.bytes ∣ addr.toNat) ∧
      (∀ r ∈ s.params.policy.refused, r.kind = kind → r.width = n →
        ¬ (r.first.toNat ≤ addr.toNat ∧ addr.toNat ≤ r.last.toNat)) ∧
      ∀ k < n.bytes, (s.mem.byteAt (addr + BitVec.ofNat 32 k).toNat).isSome = true) ∧
  (∀ (s : State) (kind : AccessKind) (addr : Word) (n : Width), s.params.policy.enforceAlignment = true →
    ¬ n.bytes ∣ addr.toNat → s.memAdmit kind addr n = false) ∧
  (∀ (s : State) (r : RefusedRange) (addr : Word), r ∈ s.params.policy.refused →
    r.first.toNat ≤ addr.toNat → addr.toNat ≤ r.last.toNat → s.memAdmit r.kind addr r.width = false)

/-- R260: reset presents `ENTRY`: every register 0, `pc` = `ENTRY`, Running, no halt cause, from every state, and memory
is not written; a Halted core has no other way out, for no step of it gives a state. -/
def Obligations.ResetBeginsANewRun : Prop :=
  (∀ (entry : Word) (input : List Byte) (ended : Bool) (s : State),
    (∀ r, (hostReset entry input ended s).reg r = 0) ∧ (hostReset entry input ended s).pc = entry ∧
      (hostReset entry input ended s).run = .running ∧ (hostReset entry input ended s).halt = none ∧
      SameMemory s (hostReset entry input ended s)) ∧
    (∀ s t : State, s.run = .halted → step s ≠ .next t)

/-- R38 for the parts outside the core (D11): counters zero, output empty, input at its first character, memory `M0`. -/
def Obligations.ResetValuesOutsideTheCore : Prop :=
  ∀ entry m0 input ended params (s : State), s = State.resetWith entry m0 input ended params →
    s.instret = 0 ∧ s.nTaken = 0 ∧ s.nNotTaken = 0 ∧ s.output = [] ∧ s.input = input ∧ s.inputEnded = ended ∧
      s.mem = m0 ∧ s.params = params ∧ s.halt = none

/-! ### Register-register ALU -/

/-- R120. -/
def Obligations.AddComputesSum : Prop :=
  ∀ (rd rs1 rs2 : RegIdx) (s : State),
    decode (wordR 0b0000000 rs2 rs1 0b000 rd 0b0110011) = .ok (.add rd rs1 rs2) ∧
      Computes (.add rd rs1 rs2) rd (BitVec.ofNat 32 ((s.reg rs1).toNat + (s.reg rs2).toNat)) s

/-- R121; `rs1` the minuend is the spec's choice (R130, D7). -/
def Obligations.SubtractComputesDifference : Prop :=
  ∀ (rd rs1 rs2 : RegIdx) (s : State),
    decode (wordR 0b0100000 rs2 rs1 0b000 rd 0b0110011) = .ok (.sub rd rs1 rs2) ∧
      Computes (.sub rd rs1 rs2) rd (BitVec.ofInt 32 ((s.reg rs1).toNat - (s.reg rs2).toNat)) s

/-- R125, R128, R129, bit by bit. -/
def Obligations.BitwiseRegisterOperations : Prop :=
  ∀ (rd rs1 rs2 : RegIdx) (s : State),
    (decode (wordR 0b0000000 rs2 rs1 0b100 rd 0b0110011) = .ok (.xor rd rs1 rs2) ∧
      ∃ v, Computes (.xor rd rs1 rs2) rd v s ∧ ∀ k < 32, v.getLsbD k = ((s.reg rs1).getLsbD k != (s.reg rs2).getLsbD k)) ∧
    (decode (wordR 0b0000000 rs2 rs1 0b110 rd 0b0110011) = .ok (.or rd rs1 rs2) ∧
      ∃ v, Computes (.or rd rs1 rs2) rd v s ∧ ∀ k < 32, v.getLsbD k = ((s.reg rs1).getLsbD k || (s.reg rs2).getLsbD k)) ∧
    (decode (wordR 0b0000000 rs2 rs1 0b111 rd 0b0110011) = .ok (.and rd rs1 rs2) ∧
      ∃ v, Computes (.and rd rs1 rs2) rd v s ∧ ∀ k < 32, v.getLsbD k = ((s.reg rs1).getLsbD k && (s.reg rs2).getLsbD k))

/-- R122, R126, R127, R131: only the low 5 bits of `x[rs2]` count, sra rounds toward minus infinity. That `rs1` is the
value shifted is the spec's choice (R130, D7). -/
def Obligations.RegisterShifts : Prop :=
  ∀ (rd rs1 rs2 : RegIdx) (s : State),
    Computes (.sll rd rs1 rs2) rd (BitVec.ofNat 32 ((s.reg rs1).toNat * 2 ^ ((s.reg rs2).toNat % 32))) s ∧
    Computes (.srl rd rs1 rs2) rd (BitVec.ofNat 32 ((s.reg rs1).toNat / 2 ^ ((s.reg rs2).toNat % 32))) s ∧
    Computes (.sra rd rs1 rs2) rd (BitVec.ofInt 32 ((s.reg rs1).toInt / 2 ^ ((s.reg rs2).toNat % 32))) s

/-- R123, R124; that `rs1` is the left side is the spec's choice (R130, D7). -/
def Obligations.RegisterComparisons : Prop :=
  ∀ (rd rs1 rs2 : RegIdx) (s : State),
    Computes (.slt rd rs1 rs2) rd (if (s.reg rs1).toInt < (s.reg rs2).toInt then 1 else 0) s ∧
    Computes (.sltu rd rs1 rs2) rd (if (s.reg rs1).toNat < (s.reg rs2).toNat then 1 else 0) s

/-! ### Multiply and divide -/

/-- R140 to R143: the low word, and the floor of the exact product by 2^32 (mulhsu's roles: R151, D7). -/
def Obligations.MultiplyKeepsItsHalf : Prop :=
  ∀ (rd rs1 rs2 : RegIdx) (s : State),
    Computes (.mul rd rs1 rs2) rd (BitVec.ofInt 32 ((s.reg rs1).toInt * (s.reg rs2).toInt)) s ∧
    Computes (.mulh rd rs1 rs2) rd (BitVec.ofInt 32 ((s.reg rs1).toInt * (s.reg rs2).toInt / 2 ^ 32)) s ∧
    Computes (.mulhsu rd rs1 rs2) rd (BitVec.ofInt 32 ((s.reg rs1).toInt * (s.reg rs2).toNat / 2 ^ 32)) s ∧
    Computes (.mulhu rd rs1 rs2) rd (BitVec.ofNat 32 ((s.reg rs1).toNat * (s.reg rs2).toNat / 2 ^ 32)) s

/-- R148 (its derived clause): `{mulhu, mul}` is the 64-bit unsigned product and `{mulh, mul}` the 64-bit signed one. -/
def Obligations.MultiplyHalvesFormTheProduct : Prop :=
  ∀ (rd rs1 rs2 : RegIdx) (s : State), ∃ lo hi hu : Word,
    Computes (.mul rd rs1 rs2) rd lo s ∧ Computes (.mulh rd rs1 rs2) rd hi s ∧ Computes (.mulhu rd rs1 rs2) rd hu s ∧
      (hu ++ lo : BitVec 64).toNat = (s.reg rs1).toNat * (s.reg rs2).toNat ∧
      (hi ++ lo : BitVec 64).toInt = (s.reg rs1).toInt * (s.reg rs2).toInt

/-- The row `b = 0` of R150 (R144 to R147): no fault, all ones, the dividend unchanged. Which field is the divisor is the
spec's choice (R151, D7). -/
def Obligations.DivisionByZeroIsDefined : Prop :=
  ∀ (rd rs1 rs2 : RegIdx) (s : State), s.reg rs2 = 0 →
    Computes (.div rd rs1 rs2) rd 0xFFFFFFFF s ∧ Computes (.divu rd rs1 rs2) rd 0xFFFFFFFF s ∧
      Computes (.rem rd rs1 rs2) rd (s.reg rs1) s ∧ Computes (.remu rd rs1 rs2) rd (s.reg rs1) s

/-- The overflow row of R150: all four complete; rem at overflow is the spec's choice (D27). -/
def Obligations.DivisionOverflowIsDefined : Prop :=
  ∀ (rd rs1 rs2 : RegIdx) (s : State), s.reg rs1 = 0x80000000 → s.reg rs2 = 0xFFFFFFFF →
    Computes (.div rd rs1 rs2) rd 0x80000000 s ∧ Computes (.divu rd rs1 rs2) rd 0 s ∧
      Computes (.rem rd rs1 rs2) rd 0 s ∧ Computes (.remu rd rs1 rs2) rd 0x80000000 s

/-- R144, R146, R149 in the ordinary case: the quotient and the remainder satisfy `a = b * q + r` on integers, `|r| < |b|`,
and `r` is zero or has the sign of `a`, which fixes both (rounding toward zero: D27). -/
def Obligations.SignedDivisionLaw : Prop :=
  ∀ (rd rs1 rs2 : RegIdx) (s : State), s.reg rs2 ≠ 0 → ¬ (s.reg rs1 = 0x80000000 ∧ s.reg rs2 = 0xFFFFFFFF) →
    ∃ q r : Word, Computes (.div rd rs1 rs2) rd q s ∧ Computes (.rem rd rs1 rs2) rd r s ∧
      (s.reg rs1).toInt = (s.reg rs2).toInt * q.toInt + r.toInt ∧ |r.toInt| < |(s.reg rs2).toInt| ∧
      (r.toInt = 0 ∨ r.toInt.sign = (s.reg rs1).toInt.sign)

/-- R145, R147, R149: unsigned division rounds down and `0 ≤ r < b` (roles: D7). -/
def Obligations.UnsignedDivisionLaw : Prop :=
  ∀ (rd rs1 rs2 : RegIdx) (s : State), s.reg rs2 ≠ 0 →
    ∃ q r : Word, Computes (.divu rd rs1 rs2) rd q s ∧ Computes (.remu rd rs1 rs2) rd r s ∧
      (s.reg rs1).toNat = (s.reg rs2).toNat * q.toNat + r.toNat ∧ r.toNat < (s.reg rs2).toNat

/-! ### Register-immediate ALU, upper immediates -/

/-- R161: its encoding, its sum, and the source's example. -/
def Obligations.AddImmediateComputesSum : Prop :=
  (∀ (rd rs1 : RegIdx) (f : BitVec 12) (s : State),
    decode (wordI f rs1 0b000 rd 0b0010011) = .ok (.addi rd rs1 (f.signExtend 32)) ∧
      Computes (.addi rd rs1 (f.signExtend 32)) rd (BitVec.ofInt 32 ((s.reg rs1).toInt + f.toInt)) s) ∧
    decode 0x00100013 = .ok (.addi 0 0 1)

/-- R165, R168, R169, bit by bit, with the sign-extended immediate (bit `k` of it is bit 11 of the field from 11 up).
The `funct3` numbers are the spec's choice (D3). -/
def Obligations.BitwiseImmediateOperations : Prop :=
  ∀ (rd rs1 : RegIdx) (f : BitVec 12) (s : State),
    (decode (wordI f rs1 0b100 rd 0b0010011) = .ok (.xori rd rs1 (f.signExtend 32)) ∧
      ∃ v, Computes (.xori rd rs1 (f.signExtend 32)) rd v s ∧
        ∀ k < 32, v.getLsbD k = ((s.reg rs1).getLsbD k != f.getLsbD (min k 11))) ∧
    (decode (wordI f rs1 0b110 rd 0b0010011) = .ok (.ori rd rs1 (f.signExtend 32)) ∧
      ∃ v, Computes (.ori rd rs1 (f.signExtend 32)) rd v s ∧
        ∀ k < 32, v.getLsbD k = ((s.reg rs1).getLsbD k || f.getLsbD (min k 11))) ∧
    (decode (wordI f rs1 0b111 rd 0b0010011) = .ok (.andi rd rs1 (f.signExtend 32)) ∧
      ∃ v, Computes (.andi rd rs1 (f.signExtend 32)) rd v s ∧
        ∀ k < 32, v.getLsbD k = ((s.reg rs1).getLsbD k && f.getLsbD (min k 11)))

/-- R160, R162, R166, R167: the shift by `shamt`, and every word of `funct3` 1 and 5 under opcode 0x13 is one of the
three, `w[30]` alone choosing between the right shifts (numbers: D3; ignored bits: D22). -/
def Obligations.ImmediateShifts : Prop :=
  (∀ (rd rs1 : RegIdx) (shamt : BitVec 5) (s : State),
    Computes (.slli rd rs1 shamt) rd (BitVec.ofNat 32 ((s.reg rs1).toNat * 2 ^ shamt.toNat)) s ∧
    Computes (.srli rd rs1 shamt) rd (BitVec.ofNat 32 ((s.reg rs1).toNat / 2 ^ shamt.toNat)) s ∧
    Computes (.srai rd rs1 shamt) rd (BitVec.ofInt 32 ((s.reg rs1).toInt / 2 ^ shamt.toNat)) s) ∧
  (∀ (rd rs1 : RegIdx) (shamt : BitVec 5) (hi : BitVec 7),
    decode (wordR hi shamt rs1 0b001 rd 0b0010011) = .ok (.slli rd rs1 shamt) ∧
    decode (wordR hi shamt rs1 0b101 rd 0b0010011) =
      .ok (if hi.getLsbD 5 then .srai rd rs1 shamt else .srli rd rs1 shamt))

/-- R163, R164: sltiu reads the sign-extended immediate as unsigned (numbers: D3). -/
def Obligations.ImmediateComparisons : Prop :=
  ∀ (rd rs1 : RegIdx) (f : BitVec 12) (s : State),
    decode (wordI f rs1 0b010 rd 0b0010011) = .ok (.slti rd rs1 (f.signExtend 32)) ∧
    Computes (.slti rd rs1 (f.signExtend 32)) rd (if (s.reg rs1).toInt < f.toInt then 1 else 0) s ∧
    decode (wordI f rs1 0b011 rd 0b0010011) = .ok (.sltiu rd rs1 (f.signExtend 32)) ∧
    Computes (.sltiu rd rs1 (f.signExtend 32)) rd
      (if (s.reg rs1).toNat < (if f.getLsbD 11 then f.toNat + 0xFFFFF000 else f.toNat) then 1 else 0) s

/-- R210: the field in the upper 20 bits, the low 12 bits zero. -/
def Obligations.LoadUpperImmediate : Prop :=
  ∀ (rd : RegIdx) (f : BitVec 20) (s : State),
    decode (f ++ rd ++ 0b0110111#7) = .ok (.lui rd (f.setWidth 32)) ∧
      Computes (.lui rd (f.setWidth 32)) rd (f ++ 0#12) s

/-- R211: the address of the auipc itself plus the field in the upper 20 bits, modulo 2^32. -/
def Obligations.AddUpperImmediateToPc : Prop :=
  ∀ (rd : RegIdx) (f : BitVec 20) (s : State),
    decode (f ++ rd ++ 0b0010111#7) = .ok (.auipc rd (f.setWidth 32)) ∧
      Computes (.auipc rd (f.setWidth 32)) rd (BitVec.ofNat 32 (s.pc.toNat + f.toNat * 2 ^ 12)) s

/-! ### Loads and stores -/

/-- R180, R181, R184 (byte loads): an admitted read completes and is sign- or zero-extended (numbers: D4). -/
def Obligations.ByteLoads : Prop :=
  ∀ (rd rs1 : RegIdx) (f : BitVec 12) (s : State) (ea : Word) (b : Byte), ea = s.reg rs1 + f.signExtend 32 →
    s.params.policy.admits .load ea .one = true → s.mem.byteAt ea.toNat = some b →
    (decode (wordI f rs1 0b000 rd 0b0000011) = .ok (.lb rd rs1 (f.signExtend 32)) ∧
      Computes (.lb rd rs1 (f.signExtend 32)) rd (BitVec.ofInt 32 b.toInt) s) ∧
    (decode (wordI f rs1 0b100 rd 0b0000011) = .ok (.lbu rd rs1 (f.signExtend 32)) ∧
      Computes (.lbu rd rs1 (f.signExtend 32)) rd (BitVec.ofNat 32 b.toNat) s)

/-- R180, R182, R185 (half loads): the byte at `ea` is bits 7:0, the one at `ea + 1` bits 15:8 (order: D8; numbers: D4). -/
def Obligations.HalfLoads : Prop :=
  ∀ (rd rs1 : RegIdx) (f : BitVec 12) (s : State) (ea : Word) (b0 b1 : Byte), ea = s.reg rs1 + f.signExtend 32 →
    s.params.policy.admits .load ea .two = true → s.mem.byteAt ea.toNat = some b0 →
    s.mem.byteAt (ea + 1).toNat = some b1 →
    (decode (wordI f rs1 0b001 rd 0b0000011) = .ok (.lh rd rs1 (f.signExtend 32)) ∧
      Computes (.lh rd rs1 (f.signExtend 32)) rd (BitVec.ofInt 32 (b1.toInt * 256 + b0.toNat)) s) ∧
    (decode (wordI f rs1 0b101 rd 0b0000011) = .ok (.lhu rd rs1 (f.signExtend 32)) ∧
      Computes (.lhu rd rs1 (f.signExtend 32)) rd (BitVec.ofNat 32 (b1.toNat * 256 + b0.toNat)) s)

/-- R180, R183 (lw), at any alignment the policy admits (order: D8; number: D4). -/
def Obligations.WordLoad : Prop :=
  ∀ (rd rs1 : RegIdx) (f : BitVec 12) (s : State) (ea : Word) (b0 b1 b2 b3 : Byte), ea = s.reg rs1 + f.signExtend 32 →
    s.params.policy.admits .load ea .four = true → s.mem.byteAt ea.toNat = some b0 →
    s.mem.byteAt (ea + 1).toNat = some b1 → s.mem.byteAt (ea + 2).toNat = some b2 →
    s.mem.byteAt (ea + 3).toNat = some b3 →
    decode (wordI f rs1 0b010 rd 0b0000011) = .ok (.lw rd rs1 (f.signExtend 32)) ∧
      Computes (.lw rd rs1 (f.signExtend 32)) rd
        (BitVec.ofNat 32 (b3.toNat * 2 ^ 24 + b2.toNat * 2 ^ 16 + b1.toNat * 2 ^ 8 + b0.toNat)) s

/-- R190 to R193: an admitted store writes exactly its bytes, low byte first (order: D8; roles: D7; numbers: D5). -/
def Obligations.StoresWriteExactlyTheirBytes : Prop :=
  ∀ (rs1 rs2 : RegIdx) (hi : BitVec 7) (lo : BitVec 5) (imm : Word) (s : State) (ea : Word),
    imm = (hi ++ lo : BitVec 12).signExtend 32 → ea = s.reg rs1 + imm →
    (decode (wordS hi rs2 rs1 0b000 lo 0b0100011) = .ok (.sb rs1 rs2 imm) ∧
      (s.memAdmit .store ea .one = true → Stores (.sb rs1 rs2 imm) ea 1 (s.reg rs2) s)) ∧
    (decode (wordS hi rs2 rs1 0b001 lo 0b0100011) = .ok (.sh rs1 rs2 imm) ∧
      (s.memAdmit .store ea .two = true → Stores (.sh rs1 rs2 imm) ea 2 (s.reg rs2) s)) ∧
    (decode (wordS hi rs2 rs1 0b010 lo 0b0100011) = .ok (.sw rs1 rs2 imm) ∧
      (s.memAdmit .store ea .four = true → Stores (.sw rs1 rs2 imm) ea 4 (s.reg rs2) s))

/-- R186, R194, R233, R236 (D15): a refused load or store raises MemoryFault(kind, ea, n), whatever `rd` is, and changes
nothing: no register, no byte. The word recorded is `s.obs.stepW`, which a step sets to the fetched word before the
instruction runs (R231; log 11, DEDUCED): of an arbitrary state it need not be this instruction's word. The base of the
stores is D7 (log 25). -/
def Obligations.RefusedDataAccessesRaiseMemoryFault : Prop :=
  ∀ (rd rs1 rs2 : RegIdx) (imm : Word) (s : State) (ea : Word), ea = s.reg rs1 + imm →
    (s.memAdmit .load ea .one = false →
      Raises (.lb rd rs1 imm) (.memoryFault .load ea .one s.pc (some s.obs.stepW) s.instret) s ∧
      Raises (.lbu rd rs1 imm) (.memoryFault .load ea .one s.pc (some s.obs.stepW) s.instret) s) ∧
    (s.memAdmit .load ea .two = false →
      Raises (.lh rd rs1 imm) (.memoryFault .load ea .two s.pc (some s.obs.stepW) s.instret) s ∧
      Raises (.lhu rd rs1 imm) (.memoryFault .load ea .two s.pc (some s.obs.stepW) s.instret) s) ∧
    (s.memAdmit .load ea .four = false →
      Raises (.lw rd rs1 imm) (.memoryFault .load ea .four s.pc (some s.obs.stepW) s.instret) s) ∧
    (s.memAdmit .store ea .one = false →
      Raises (.sb rs1 rs2 imm) (.memoryFault .store ea .one s.pc (some s.obs.stepW) s.instret) s) ∧
    (s.memAdmit .store ea .two = false →
      Raises (.sh rs1 rs2 imm) (.memoryFault .store ea .two s.pc (some s.obs.stepW) s.instret) s) ∧
    (s.memAdmit .store ea .four = false →
      Raises (.sw rs1 rs2 imm) (.memoryFault .store ea .four s.pc (some s.obs.stepW) s.instret) s)

/-- R56, R64 and R66 (derived from the byte array): after sw, lw at the same address gives the word back, lbu at each of
its four bytes that byte, and a fetch at that address the word, in every memory that admits the read. The byte order is
D8 (log 26), x[rs1] as the base and x[rs2] as the data of sw D7 (log 25), the wrap of addresses D20 (log 33). -/
def Obligations.StoredWordIsSeenByLoadsAndFetch : Prop :=
  ∀ (rs1 rs2 rd rs : RegIdx) (imm off : Word) (s t : State) (ea : Word), ea = s.reg rs1 + imm →
    s.memAdmit .store ea .four = true → exec (.sw rs1 rs2 imm) s = .next t →
    (t.reg rs + off = ea → t.params.policy.admits .load ea .four = true →
      Computes (.lw rd rs off) rd (s.reg rs2) t) ∧
    (∀ k < 4, t.reg rs + off = ea + BitVec.ofNat 32 k → t.params.policy.admits .load (ea + BitVec.ofNat 32 k) .one = true →
      Computes (.lbu rd rs off) rd (BitVec.ofNat 32 ((s.reg rs2).toNat / 2 ^ (8 * k) % 2 ^ 8)) t) ∧
    (ea = s.pc + 4 → t.params.policy.admits .fetch ea .four = true → HoldsWord t (s.reg rs2))

/-! ### Control transfer -/

/-- R200 to R206 with R85: the scattered offset bits, the six conditions, the target `pc + imm`, `taken` the condition
(target: D28; roles: D7; numbers: D6; wrap: D20; `taken`: D17; no check of the target: D25). -/
def Obligations.BranchesFollowTheirConditions : Prop :=
  (∀ (rs1 rs2 : RegIdx) (imm : Word) (s : State),
    Branches (.beq rs1 rs2 imm) ((s.reg rs1).toNat = (s.reg rs2).toNat) imm s ∧
    Branches (.bne rs1 rs2 imm) ((s.reg rs1).toNat ≠ (s.reg rs2).toNat) imm s ∧
    Branches (.blt rs1 rs2 imm) ((s.reg rs1).toInt < (s.reg rs2).toInt) imm s ∧
    Branches (.bge rs1 rs2 imm) ((s.reg rs1).toInt ≥ (s.reg rs2).toInt) imm s ∧
    Branches (.bltu rs1 rs2 imm) ((s.reg rs1).toNat < (s.reg rs2).toNat) imm s ∧
    Branches (.bgeu rs1 rs2 imm) ((s.reg rs1).toNat ≥ (s.reg rs2).toNat) imm s) ∧
  (∀ (rs1 rs2 : RegIdx) (b12 b11 : BitVec 1) (b10 : BitVec 6) (b4 : BitVec 4) (imm : Word),
    imm = (b12 ++ b11 ++ b10 ++ b4 ++ 0#1 : BitVec 13).signExtend 32 →
    decode (wordB b12 b10 rs2 rs1 0b000 b4 b11) = .ok (.beq rs1 rs2 imm) ∧
    decode (wordB b12 b10 rs2 rs1 0b001 b4 b11) = .ok (.bne rs1 rs2 imm) ∧
    decode (wordB b12 b10 rs2 rs1 0b100 b4 b11) = .ok (.blt rs1 rs2 imm) ∧
    decode (wordB b12 b10 rs2 rs1 0b101 b4 b11) = .ok (.bge rs1 rs2 imm) ∧
    decode (wordB b12 b10 rs2 rs1 0b110 b4 b11) = .ok (.bltu rs1 rs2 imm) ∧
    decode (wordB b12 b10 rs2 rs1 0b111 b4 b11) = .ok (.bgeu rs1 rs2 imm))

/-- R215: the scattered offset bits, the link `pc + 4`, the target `pc + imm`, taken. -/
def Obligations.JumpAndLink : Prop :=
  ∀ (rd : RegIdx) (b20 b11 : BitVec 1) (b10 : BitVec 10) (b19 : BitVec 8) (imm : Word) (s : State),
    imm = (b20 ++ b19 ++ b11 ++ b10 ++ 0#1 : BitVec 21).signExtend 32 →
    decode (b20 ++ b10 ++ b11 ++ b19 ++ rd ++ 0b1101111#7) = .ok (.jal rd imm) ∧
      Jumps (.jal rd imm) rd (s.pc + imm) s

/-- R216: the target is the old `x[rs1]` plus the immediate with bit 0 cleared, also when `rd` = `rs1` (D24). -/
def Obligations.JumpAndLinkRegister : Prop :=
  ∀ (rd rs1 : RegIdx) (f : BitVec 12) (s : State),
    decode (wordI f rs1 0b000 rd 0b1100111) = .ok (.jalr rd rs1 (f.signExtend 32)) ∧
      Jumps (.jalr rd rs1 (f.signExtend 32)) rd
        (BitVec.ofNat 32 ((s.reg rs1 + f.signExtend 32).toNat / 2 * 2)) s

/-! ### Environment call -/

/-- R222 (D10, D11): call 1 writes the next input byte, zero-extended, to x[10] and consumes it, or `EOF_VALUE` at the
end of the input. -/
def Obligations.EcallReadsCharacter : Prop :=
  ∀ s : State, s.reg 17 = 1 →
    (∀ b rest, s.input = b :: rest →
      ∃ t, exec .ecall s = .next t ∧ t.reg 10 = BitVec.ofNat 32 b.toNat ∧ t.input = rest ∧ SameRegsBut 10 s t ∧
        t.pc = s.pc + 4 ∧ t.output = s.output ∧ t.inputEnded = s.inputEnded ∧ SameMemory s t ∧ SameRun s t ∧ Retired s t) ∧
    (s.input = [] → s.inputEnded = true → Computes .ecall 10 s.params.eofValue s)

/-- R32, R222, R250: with no byte available and the input not ended the core holds: Running, the step not completed,
nothing changed. x[17] as the call number is D10 (log 27), the hold D11 (log 28). That the model answers the held state as the next one is its own choice (log 7). -/
def Obligations.EcallReadHoldsForInput : Prop :=
  ∀ s : State, s.reg 17 = 1 → s.input = [] → s.inputEnded = false →
    ∃ t, exec .ecall s = .next t ∧ SameRegs s t ∧ t.pc = s.pc ∧ SameMemory s t ∧ SameStreams s t ∧ SameRun s t ∧
      SameCounters s t ∧ Outputs false false none s t

/-- R223 (D10, D12): call 2 appends the low byte of x[10] to the output and changes no register. That output never holds
the core is the model's own choice (log 8). -/
def Obligations.EcallWritesCharacter : Prop :=
  ∀ s : State, s.reg 17 = 2 →
    ∃ t, exec .ecall s = .next t ∧ t.output = s.output ++ [BitVec.ofNat 8 ((s.reg 10).toNat % 256)] ∧
      t.input = s.input ∧ t.inputEnded = s.inputEnded ∧ SameRegs s t ∧ t.pc = s.pc + 4 ∧ SameMemory s t ∧
      SameRun s t ∧ Retired s t

/-- R224, R238 (D10, D13, D18): calls 3 and 93 halt with Exit, `pc + 4`, the step not counted. -/
def Obligations.EcallExits : Prop :=
  ∀ s : State, s.reg 17 = 3 ∨ s.reg 17 = 93 →
    ∃ t, exec .ecall s = .next t ∧ HaltedBy (.exit (s.reg 17) s.pc) s t ∧ t.pc = s.pc + 4

/-- R225, R234 (D10, D15): any other number, the whole 32-bit value compared, raises UnrecognizedSyscall. The word
recorded is `s.obs.stepW`, which a step sets to the fetched word before the instruction runs (R231; log 11, DEDUCED): of an
arbitrary state it need not be the word of an ecall. -/
def Obligations.EcallRaisesUnrecognizedSyscall : Prop :=
  ∀ s : State, s.reg 17 ≠ 1 → s.reg 17 ≠ 2 → s.reg 17 ≠ 3 → s.reg 17 ≠ 93 →
    Raises .ecall (.unrecognizedSyscall (s.reg 17) s.pc s.obs.stepW s.instret) s
end

