-- ==== Sys2Proof/Laws/Encoding.lean ====
section
/-! SUPPORT. The fields of an encoded word (spec/30_encoding.md R82 to R87), and that an immediate a format can carry
is the extension of its own low bits. -/

namespace Sys2Proof

/-! ### Fields of an encoded word -/

section Fields

variable (f7 : BitVec 7) (rs2 rs1 rd : RegIdx) (f3 : BitVec 3) (op : BitVec 7) (imm : Word)

@[simp] theorem opcodeOf_encR : opcodeOf (encR f7 rs2 rs1 f3 rd op) = op := by
  unfold opcodeOf encR
  repeat first
    | rw [BitVec.extractLsb'_append_eq_of_le (by decide)]
    | rw [BitVec.extractLsb'_append_eq_of_add_le (by decide)]
  exact BitVec.extractLsb'_eq_self

@[simp] theorem rdOf_encR : rdOf (encR f7 rs2 rs1 f3 rd op) = rd := by
  unfold rdOf encR
  repeat first
    | rw [BitVec.extractLsb'_append_eq_of_le (by decide)]
    | rw [BitVec.extractLsb'_append_eq_of_add_le (by decide)]
  exact BitVec.extractLsb'_eq_self

@[simp] theorem funct3Of_encR : funct3Of (encR f7 rs2 rs1 f3 rd op) = f3 := by
  unfold funct3Of encR
  repeat first
    | rw [BitVec.extractLsb'_append_eq_of_le (by decide)]
    | rw [BitVec.extractLsb'_append_eq_of_add_le (by decide)]
  exact BitVec.extractLsb'_eq_self

@[simp] theorem rs1Of_encR : rs1Of (encR f7 rs2 rs1 f3 rd op) = rs1 := by
  unfold rs1Of encR
  repeat first
    | rw [BitVec.extractLsb'_append_eq_of_le (by decide)]
    | rw [BitVec.extractLsb'_append_eq_of_add_le (by decide)]
  exact BitVec.extractLsb'_eq_self

@[simp] theorem rs2Of_encR : rs2Of (encR f7 rs2 rs1 f3 rd op) = rs2 := by
  unfold rs2Of encR
  repeat first
    | rw [BitVec.extractLsb'_append_eq_of_le (by decide)]
    | rw [BitVec.extractLsb'_append_eq_of_add_le (by decide)]
  exact BitVec.extractLsb'_eq_self

@[simp] theorem funct7Of_encR : funct7Of (encR f7 rs2 rs1 f3 rd op) = f7 := by
  unfold funct7Of encR
  repeat rw [BitVec.extractLsb'_append_eq_of_le (by decide)]
  exact BitVec.extractLsb'_eq_self

@[simp] theorem opcodeOf_encI : opcodeOf (encI imm rs1 f3 rd op) = op := by
  unfold opcodeOf encI
  repeat first
    | rw [BitVec.extractLsb'_append_eq_of_le (by decide)]
    | rw [BitVec.extractLsb'_append_eq_of_add_le (by decide)]
  exact BitVec.extractLsb'_eq_self

@[simp] theorem rdOf_encI : rdOf (encI imm rs1 f3 rd op) = rd := by
  unfold rdOf encI
  repeat first
    | rw [BitVec.extractLsb'_append_eq_of_le (by decide)]
    | rw [BitVec.extractLsb'_append_eq_of_add_le (by decide)]
  exact BitVec.extractLsb'_eq_self

@[simp] theorem funct3Of_encI : funct3Of (encI imm rs1 f3 rd op) = f3 := by
  unfold funct3Of encI
  repeat first
    | rw [BitVec.extractLsb'_append_eq_of_le (by decide)]
    | rw [BitVec.extractLsb'_append_eq_of_add_le (by decide)]
  exact BitVec.extractLsb'_eq_self

@[simp] theorem rs1Of_encI : rs1Of (encI imm rs1 f3 rd op) = rs1 := by
  unfold rs1Of encI
  repeat first
    | rw [BitVec.extractLsb'_append_eq_of_le (by decide)]
    | rw [BitVec.extractLsb'_append_eq_of_add_le (by decide)]
  exact BitVec.extractLsb'_eq_self

theorem immI_encI :
    immI (encI imm rs1 f3 rd op) = (imm.extractLsb' 0 12).signExtend 32 := by
  unfold immI encI
  repeat rw [BitVec.extractLsb'_append_eq_of_le (by decide)]
  simp only [Nat.reduceSub, BitVec.extractLsb'_eq_self]

@[simp] theorem opcodeOf_encS : opcodeOf (encS imm rs2 rs1 f3 op) = op := by
  unfold opcodeOf encS
  repeat first
    | rw [BitVec.extractLsb'_append_eq_of_le (by decide)]
    | rw [BitVec.extractLsb'_append_eq_of_add_le (by decide)]
  exact BitVec.extractLsb'_eq_self

@[simp] theorem funct3Of_encS : funct3Of (encS imm rs2 rs1 f3 op) = f3 := by
  unfold funct3Of encS
  repeat first
    | rw [BitVec.extractLsb'_append_eq_of_le (by decide)]
    | rw [BitVec.extractLsb'_append_eq_of_add_le (by decide)]
  exact BitVec.extractLsb'_eq_self

@[simp] theorem rs1Of_encS : rs1Of (encS imm rs2 rs1 f3 op) = rs1 := by
  unfold rs1Of encS
  repeat first
    | rw [BitVec.extractLsb'_append_eq_of_le (by decide)]
    | rw [BitVec.extractLsb'_append_eq_of_add_le (by decide)]
  exact BitVec.extractLsb'_eq_self

@[simp] theorem rs2Of_encS : rs2Of (encS imm rs2 rs1 f3 op) = rs2 := by
  unfold rs2Of encS
  repeat first
    | rw [BitVec.extractLsb'_append_eq_of_le (by decide)]
    | rw [BitVec.extractLsb'_append_eq_of_add_le (by decide)]
  exact BitVec.extractLsb'_eq_self

theorem immS_encS :
    immS (encS imm rs2 rs1 f3 op) = (imm.extractLsb' 0 12).signExtend 32 := by
  unfold immS encS
  repeat first
    | rw [BitVec.extractLsb'_append_eq_of_le (by decide)]
    | rw [BitVec.extractLsb'_append_eq_of_add_le (by decide)]
  simp only [Nat.reduceSub, BitVec.extractLsb'_eq_self]
  rw [BitVec.extractLsb'_append_extractLsb'_eq_extractLsb' (by decide)]

@[simp] theorem opcodeOf_encB : opcodeOf (encB imm rs2 rs1 f3 op) = op := by
  unfold opcodeOf encB
  repeat first
    | rw [BitVec.extractLsb'_append_eq_of_le (by decide)]
    | rw [BitVec.extractLsb'_append_eq_of_add_le (by decide)]
  exact BitVec.extractLsb'_eq_self

@[simp] theorem funct3Of_encB : funct3Of (encB imm rs2 rs1 f3 op) = f3 := by
  unfold funct3Of encB
  repeat first
    | rw [BitVec.extractLsb'_append_eq_of_le (by decide)]
    | rw [BitVec.extractLsb'_append_eq_of_add_le (by decide)]
  exact BitVec.extractLsb'_eq_self

@[simp] theorem rs1Of_encB : rs1Of (encB imm rs2 rs1 f3 op) = rs1 := by
  unfold rs1Of encB
  repeat first
    | rw [BitVec.extractLsb'_append_eq_of_le (by decide)]
    | rw [BitVec.extractLsb'_append_eq_of_add_le (by decide)]
  exact BitVec.extractLsb'_eq_self

@[simp] theorem rs2Of_encB : rs2Of (encB imm rs2 rs1 f3 op) = rs2 := by
  unfold rs2Of encB
  repeat first
    | rw [BitVec.extractLsb'_append_eq_of_le (by decide)]
    | rw [BitVec.extractLsb'_append_eq_of_add_le (by decide)]
  exact BitVec.extractLsb'_eq_self

theorem immB_encB :
    immB (encB imm rs2 rs1 f3 op) = (imm.extractLsb' 1 12 ++ 0#1).signExtend 32 := by
  unfold immB encB
  repeat first
    | rw [BitVec.extractLsb'_append_eq_of_le (by decide)]
    | rw [BitVec.extractLsb'_append_eq_of_add_le (by decide)]
  simp only [Nat.reduceSub, BitVec.extractLsb'_eq_self]
  rw [BitVec.extractLsb'_append_extractLsb'_eq_extractLsb' (by decide), BitVec.extractLsb'_append_extractLsb'_eq_extractLsb' (by decide), BitVec.extractLsb'_append_extractLsb'_eq_extractLsb' (by decide)]

@[simp] theorem opcodeOf_encU : opcodeOf (encU imm rd op) = op := by
  unfold opcodeOf encU
  repeat first
    | rw [BitVec.extractLsb'_append_eq_of_le (by decide)]
    | rw [BitVec.extractLsb'_append_eq_of_add_le (by decide)]
  exact BitVec.extractLsb'_eq_self

@[simp] theorem rdOf_encU : rdOf (encU imm rd op) = rd := by
  unfold rdOf encU
  repeat first
    | rw [BitVec.extractLsb'_append_eq_of_le (by decide)]
    | rw [BitVec.extractLsb'_append_eq_of_add_le (by decide)]
  exact BitVec.extractLsb'_eq_self

theorem immU_encU :
    immU (encU imm rd op) = (imm.extractLsb' 0 20).setWidth 32 := by
  unfold immU encU
  repeat rw [BitVec.extractLsb'_append_eq_of_le (by decide)]
  simp only [Nat.reduceSub, BitVec.extractLsb'_eq_self]

@[simp] theorem opcodeOf_encJ : opcodeOf (encJ imm rd op) = op := by
  unfold opcodeOf encJ
  repeat first
    | rw [BitVec.extractLsb'_append_eq_of_le (by decide)]
    | rw [BitVec.extractLsb'_append_eq_of_add_le (by decide)]
  exact BitVec.extractLsb'_eq_self

@[simp] theorem rdOf_encJ : rdOf (encJ imm rd op) = rd := by
  unfold rdOf encJ
  repeat first
    | rw [BitVec.extractLsb'_append_eq_of_le (by decide)]
    | rw [BitVec.extractLsb'_append_eq_of_add_le (by decide)]
  exact BitVec.extractLsb'_eq_self

theorem immJ_encJ :
    immJ (encJ imm rd op) = (imm.extractLsb' 1 20 ++ 0#1).signExtend 32 := by
  unfold immJ encJ
  repeat first
    | rw [BitVec.extractLsb'_append_eq_of_le (by decide)]
    | rw [BitVec.extractLsb'_append_eq_of_add_le (by decide)]
  simp only [Nat.reduceSub, BitVec.extractLsb'_eq_self]
  rw [BitVec.extractLsb'_append_extractLsb'_eq_extractLsb' (by decide), BitVec.extractLsb'_append_extractLsb'_eq_extractLsb' (by decide), BitVec.extractLsb'_append_extractLsb'_eq_extractLsb' (by decide)]

end Fields

/-! ### Bits of a decoded immediate (R89) -/

section Bits

variable (w : Word)

theorem getLsbD_immI (k : Nat) (h : k < 32) : (immI w).getLsbD k = w.getLsbD (if 11 ≤ k then 31 else k + 20) := by
  simp only [immI, BitVec.getLsbD_signExtend, BitVec.msb_eq_getLsbD_last, BitVec.getLsbD_extractLsb', h]
  split_ifs <;> simp <;> grind

theorem getLsbD_immS (k : Nat) (h : k < 32) :
    (immS w).getLsbD k = w.getLsbD (if 11 ≤ k then 31 else if 5 ≤ k then k + 20 else k + 7) := by
  simp only [immS, BitVec.getLsbD_signExtend, BitVec.getLsbD_append, BitVec.msb_eq_getLsbD_last,
    BitVec.getLsbD_extractLsb', h]
  split_ifs <;> simp <;> grind

theorem getLsbD_immB (k : Nat) (h : k < 32) :
    (immB w).getLsbD k =
      (if k = 0 then false
       else w.getLsbD (if 12 ≤ k then 31 else if k = 11 then 7 else if 5 ≤ k then k + 20 else k + 7)) := by
  simp only [immB, BitVec.getLsbD_signExtend, BitVec.getLsbD_append, BitVec.msb_eq_getLsbD_last,
    BitVec.getLsbD_extractLsb', h]
  split_ifs <;> simp <;> grind

theorem getLsbD_immU (k : Nat) (h : k < 32) :
    (immU w).getLsbD k = (if k < 20 then w.getLsbD (k + 12) else false) := by
  simp only [immU, BitVec.getLsbD_setWidth, BitVec.getLsbD_extractLsb', h]
  split_ifs <;> simp <;> grind

theorem getLsbD_immJ (k : Nat) (h : k < 32) :
    (immJ w).getLsbD k =
      (if k = 0 then false
       else w.getLsbD (if 20 ≤ k then 31 else if 12 ≤ k then k else if k = 11 then 20 else k + 20)) := by
  simp only [immJ, BitVec.getLsbD_signExtend, BitVec.getLsbD_append, BitVec.msb_eq_getLsbD_last,
    BitVec.getLsbD_extractLsb', h]
  split_ifs <;> simp <;> grind

/-- The low 5 bits of an I-format immediate are the `rs2` field (R160). -/
@[simp] theorem immI_low5 : (immI w).extractLsb' 0 5 = rs2Of w := by
  ext i h
  simp only [rs2Of, BitVec.getElem_extractLsb', Nat.zero_add]
  rw [getLsbD_immI w i (by omega)]
  grind

/-- Bit 10 of an I-format immediate is `w[30]` (R160). -/
@[simp] theorem immI_bit10 : (immI w)[10] = (funct7Of w)[5] := by
  rw [← BitVec.getLsbD_eq_getElem, getLsbD_immI w 10 (by decide), funct7Of]
  simp

end Bits

/-! ### An immediate a format can carry is the extension of its low bits -/

section Ranges

variable {imm : Word}

/-- A word whose signed value fits in `n` bits is the sign extension of its low `n` bits. -/
theorem signExtend_low (n : Nat) (hn : 0 < n) (hn' : n ≤ 32) (h1 : -(2 ^ (n - 1) : Int) ≤ imm.toInt)
    (h2 : imm.toInt < 2 ^ (n - 1)) : (imm.extractLsb' 0 n).signExtend 32 = imm := by
  apply BitVec.eq_of_toInt_eq
  rw [BitVec.toInt_signExtend_of_le hn', BitVec.toInt_eq_toNat_bmod, BitVec.extractLsb'_toNat, Nat.shiftRight_zero,
    Int.natCast_emod, Int.emod_bmod, ← Int.bmod_bmod_of_dvd (Nat.pow_dvd_pow 2 hn'), ← BitVec.toInt_eq_toNat_bmod]
  apply Int.bmod_eq_of_le_mul_two
  all_goals
    have : (2 : Int) ^ n = 2 * 2 ^ (n - 1) := by
      rw [← pow_succ']; congr 1; omega
    push_cast
    omega

theorem imm12_signExtend (h : imm12 imm = true) : (imm.extractLsb' 0 12).signExtend 32 = imm := by
  simp only [imm12, decide_eq_true_eq] at h
  exact signExtend_low 12 (by decide) (by decide) (by simpa using h.1) (by have := h.2; simp; omega)

theorem imm20_setWidth (h : imm20 imm = true) : (imm.extractLsb' 0 20).setWidth 32 = imm := by
  simp only [imm20, decide_eq_true_eq] at h
  apply BitVec.eq_of_toNat_eq
  simp [BitVec.extractLsb'_toNat]
  omega

/-- An even word's bit 0, as the last part of its low bits. -/
theorem append_even (n : Nat) (h : imm.getLsbD 0 = false) :
    imm.extractLsb' 1 n ++ 0#1 = imm.extractLsb' 0 (n + 1) := by
  have h0 : (0#1 : BitVec 1) = imm.extractLsb' 0 1 := by
    ext i hi
    have : i = 0 := by omega
    subst this
    simpa using h.symm
  rw [h0, BitVec.extractLsb'_append_extractLsb'_eq_extractLsb' (by decide)]

theorem imm13_signExtend (h : imm13 imm = true) : (imm.extractLsb' 1 12 ++ 0#1).signExtend 32 = imm := by
  simp only [imm13, Bool.and_eq_true, decide_eq_true_eq, Bool.not_eq_true'] at h
  rw [append_even 12 h.2]
  exact signExtend_low 13 (by decide) (by decide) (by simpa using h.1.1) (by have := h.1.2; simp; omega)

theorem imm21_signExtend (h : imm21 imm = true) : (imm.extractLsb' 1 20 ++ 0#1).signExtend 32 = imm := by
  simp only [imm21, Bool.and_eq_true, decide_eq_true_eq, Bool.not_eq_true'] at h
  rw [append_even 20 h.2]
  exact signExtend_low 21 (by decide) (by decide) (by simpa using h.1.1) (by have := h.1.2; simp; omega)

end Ranges

end Sys2Proof
end

