-- ==== Sys2Proof/Laws/Masks.lean ====
section
/-! SUPPORT. The four masks of the routing table (spec/30_encoding.md R92) in terms of the fields they compare: what lets
the mask table be read as the two-level dispatch. -/

namespace Sys2Proof

/-- Bit `k` of an R-layout word. -/
theorem getElem_encR (f7 : BitVec 7) (rs2 rs1 rd : RegIdx) (f3 : BitVec 3) (op : BitVec 7) (k : Nat) (h : k < 32) :
    (encR f7 rs2 rs1 f3 rd op)[k] =
      if k < 7 then op.getLsbD k else if k < 12 then rd.getLsbD (k - 7) else if k < 15 then f3.getLsbD (k - 12)
      else if k < 20 then rs1.getLsbD (k - 15) else if k < 25 then rs2.getLsbD (k - 20) else f7.getLsbD (k - 25) := by
  rw [← BitVec.getLsbD_eq_getElem]
  simp only [encR, BitVec.getLsbD_append]
  grind

theorem and_mask_opcode (w : Word) : w &&& 0x0000007F#32 = encR 0 0 0 0 0 (opcodeOf w) := by
  ext k h
  rw [getElem_encR]
  simp only [opcodeOf, BitVec.getElem_and, BitVec.getLsbD_extractLsb']
  interval_cases k <;> simp

theorem and_mask_funct3 (w : Word) : w &&& 0x0000707F#32 = encR 0 0 0 (funct3Of w) 0 (opcodeOf w) := by
  ext k h
  rw [getElem_encR]
  simp only [opcodeOf, funct3Of, BitVec.getElem_and, BitVec.getLsbD_extractLsb']
  interval_cases k <;> simp

theorem and_mask_funct7 (w : Word) : w &&& 0xFE00707F#32 = encR (funct7Of w) 0 0 (funct3Of w) 0 (opcodeOf w) := by
  ext k h
  rw [getElem_encR]
  simp only [opcodeOf, funct3Of, funct7Of, BitVec.getElem_and, BitVec.getLsbD_extractLsb']
  interval_cases k <;> simp

theorem and_mask_bit30 (w : Word) :
    w &&& 0x4000707F#32 = encR (funct7Of w &&& 0x20#7) 0 0 (funct3Of w) 0 (opcodeOf w) := by
  ext k h
  rw [getElem_encR]
  simp only [opcodeOf, funct3Of, funct7Of, BitVec.getElem_and, BitVec.getLsbD_and, BitVec.getLsbD_extractLsb']
  interval_cases k <;> simp

/-- An R-layout word determines its fields. -/
theorem encR_inj {f7 g7 : BitVec 7} {rs2 qs2 rs1 qs1 rd qd : RegIdx} {f3 g3 : BitVec 3} {op oq : BitVec 7}
    (h : encR f7 rs2 rs1 f3 rd op = encR g7 qs2 qs1 g3 qd oq) :
    f7 = g7 ∧ rs2 = qs2 ∧ rs1 = qs1 ∧ f3 = g3 ∧ rd = qd ∧ op = oq :=
  ⟨by simpa using congrArg funct7Of h, by simpa using congrArg rs2Of h, by simpa using congrArg rs1Of h,
    by simpa using congrArg funct3Of h, by simpa using congrArg rdOf h, by simpa using congrArg opcodeOf h⟩

end Sys2Proof
end

