-- ==== Sys2Proof/Laws/Decode.lean ====
section
/-! SUPPORT. The dispatch (spec/30_encoding.md R90 to R96) in the terms proofs use: a field as a number, the cases of a
`funct3`, one equation per opcode, and a word as the encoding of its own fields. -/

namespace Sys2Proof

/-! ### Fields as numbers -/

theorem opcodeOf_toNat (w : Word) : (opcodeOf w).toNat = w.toNat % 128 := by
  simp [opcodeOf, BitVec.extractLsb'_toNat]

theorem funct3Of_toNat (w : Word) : (funct3Of w).toNat = w.toNat / 2 ^ 12 % 8 := by
  simp [funct3Of, BitVec.extractLsb'_toNat, Nat.shiftRight_eq_div_pow]

theorem funct7Of_toNat (w : Word) : (funct7Of w).toNat = w.toNat / 2 ^ 25 := by
  have := w.isLt
  simp [funct7Of, BitVec.extractLsb'_toNat, Nat.shiftRight_eq_div_pow]
  omega

/-- The eight values of a `funct3`. -/
theorem funct3_cases (f : BitVec 3) :
    f = 0#3 ∨ f = 1#3 ∨ f = 2#3 ∨ f = 3#3 ∨ f = 4#3 ∨ f = 5#3 ∨ f = 6#3 ∨ f = 7#3 := by
  revert f; decide

/-! ### One equation per opcode (R90) -/

section Opcodes

variable {w : Word}

theorem decode_of_0x33 (h : opcodeOf w = 0x33#7) : decode w = routeReg (fieldsR w) := by simp [decode, h]
theorem decode_of_0x13 (h : opcodeOf w = 0x13#7) : decode w = .ok (routeImm (fieldsI w)) := by simp [decode, h]
theorem decode_of_0x03 (h : opcodeOf w = 0x03#7) : decode w = routeLoad (fieldsI w) := by simp [decode, h]
theorem decode_of_0x23 (h : opcodeOf w = 0x23#7) : decode w = routeStore (fieldsS w) := by simp [decode, h]
theorem decode_of_0x63 (h : opcodeOf w = 0x63#7) : decode w = routeBranch (fieldsB w) := by simp [decode, h]
theorem decode_of_0x37 (h : opcodeOf w = 0x37#7) : decode w = .ok (.lui (rdOf w) (immU w)) := by
  simp [decode, h, fieldsU]
theorem decode_of_0x17 (h : opcodeOf w = 0x17#7) : decode w = .ok (.auipc (rdOf w) (immU w)) := by
  simp [decode, h, fieldsU]
theorem decode_of_0x6F (h : opcodeOf w = 0x6F#7) : decode w = .ok (.jal (rdOf w) (immJ w)) := by
  simp [decode, h, fieldsJ]
theorem decode_of_0x67 (h : opcodeOf w = 0x67#7) : decode w = routeJalr (fieldsI w) := by simp [decode, h]
theorem decode_of_0x73 (h : opcodeOf w = 0x73#7) : decode w = routeSystem (fieldsI w) := by simp [decode, h]

/-- A word that decodes has one of the ten opcodes. -/
theorem opcode_cases {i : Instr} (h : decode w = .ok i) :
    opcodeOf w = 0x33#7 ∨ opcodeOf w = 0x13#7 ∨ opcodeOf w = 0x03#7 ∨ opcodeOf w = 0x23#7 ∨ opcodeOf w = 0x63#7 ∨
      opcodeOf w = 0x37#7 ∨ opcodeOf w = 0x17#7 ∨ opcodeOf w = 0x6F#7 ∨ opcodeOf w = 0x67#7 ∨ opcodeOf w = 0x73#7 := by
  simp only [BitVec.toNat_eq, BitVec.toNat_ofNat]
  unfold decode at h
  split at h <;> simp_all

end Opcodes

/-! ### A word is the encoding of its fields -/

section Whole

variable (w : Word)

theorem encR_fields : encR (funct7Of w) (rs2Of w) (rs1Of w) (funct3Of w) (rdOf w) (opcodeOf w) = w := by
  unfold encR funct7Of rs2Of rs1Of funct3Of rdOf opcodeOf
  repeat rw [BitVec.extractLsb'_append_extractLsb'_eq_extractLsb' (by decide)]
  exact BitVec.extractLsb'_eq_self

/-- The low 12 bits of a 12-bit sign extension. -/
theorem signExtend_extract (n : Nat) (hn : n ≤ 32) (v : BitVec n) : (v.signExtend 32).extractLsb' 0 n = v := by
  ext k hk
  rw [← BitVec.getLsbD_eq_getElem, ← BitVec.getLsbD_eq_getElem, BitVec.getLsbD_extractLsb', BitVec.getLsbD_signExtend]
  simp [hk, show k < 32 by omega]

theorem encI_fields : encI (immI w) (rs1Of w) (funct3Of w) (rdOf w) (opcodeOf w) = w := by
  unfold encI immI rs1Of funct3Of rdOf opcodeOf
  rw [signExtend_extract 12 (by decide)]
  repeat rw [BitVec.extractLsb'_append_extractLsb'_eq_extractLsb' (by decide)]
  exact BitVec.extractLsb'_eq_self

theorem encS_fields : encS (immS w) (rs2Of w) (rs1Of w) (funct3Of w) (opcodeOf w) = w := by
  ext k h
  simp only [encS, rs2Of, rs1Of, funct3Of, opcodeOf, BitVec.getLsbD_append, BitVec.getLsbD_extractLsb',
    Nat.zero_add, ← BitVec.getLsbD_eq_getElem]
  have := getLsbD_immS w
  grind

theorem encB_fields : encB (immB w) (rs2Of w) (rs1Of w) (funct3Of w) (opcodeOf w) = w := by
  ext k hk
  simp only [encB, rs2Of, rs1Of, funct3Of, opcodeOf, BitVec.getLsbD_append, BitVec.getLsbD_extractLsb', Nat.zero_add,
    ← BitVec.getLsbD_eq_getElem]
  have := getLsbD_immB w
  grind

theorem encU_fields : encU (immU w) (rdOf w) (opcodeOf w) = w := by
  ext k h
  simp only [encU, rdOf, opcodeOf, BitVec.getLsbD_append, BitVec.getLsbD_extractLsb', Nat.zero_add,
    ← BitVec.getLsbD_eq_getElem]
  have := getLsbD_immU w
  grind

theorem encJ_fields : encJ (immJ w) (rdOf w) (opcodeOf w) = w := by
  ext k h
  simp only [encJ, rdOf, opcodeOf, BitVec.getLsbD_append, BitVec.getLsbD_extractLsb', Nat.zero_add,
    ← BitVec.getLsbD_eq_getElem]
  have := getLsbD_immJ w
  grind

end Whole

/-! ### Bytes -/

/-- The bytes of a word, put together, are the word (R55). -/
@[simp] theorem wordOfBytes_byteOf (w : Word) : wordOfBytes (byteOf w 0) (byteOf w 1) (byteOf w 2) (byteOf w 3) = w := by
  simp only [wordOfBytes, byteOf]
  repeat rw [BitVec.extractLsb'_append_extractLsb'_eq_extractLsb' (by decide)]
  exact BitVec.extractLsb'_eq_self

/-- Four bytes decode as the word they hold (R80). -/
theorem decodeBytes_bytesOfWord {w : Word} {i : Instr} (h : decode w = .ok i) (rest : List Byte) :
    decodeBytes (bytesOfWord w ++ rest) = .ok (i, rest) := by
  simp [bytesOfWord, decodeBytes, h]

end Sys2Proof
end

