-- ==== Sys2Proof/Laws/HostPort.lean ====
section
/-! SUPPORT. What the host's three actions do (spec/10_state.md R32, R39, spec/70_reset_and_hazards.md R260), one lemma
per field they or the claims speak of. -/

namespace Sys2Proof.Machine

variable (s : State)

/-! ### supplyInput, endInput -/

theorem supplyInput_of_open (b : Byte) (h : s.inputEnded = false) :
    supplyInput b s = { s with input := s.input ++ [b] } := by simp [supplyInput, h]

theorem supplyInput_of_ended (b : Byte) (h : s.inputEnded = true) : supplyInput b s = s := by simp [supplyInput, h]

@[simp] theorem supplyInput_run (b : Byte) : (supplyInput b s).run = s.run := by unfold supplyInput; split <;> rfl
@[simp] theorem supplyInput_pc (b : Byte) : (supplyInput b s).pc = s.pc := by unfold supplyInput; split <;> rfl
@[simp] theorem supplyInput_mem (b : Byte) : (supplyInput b s).mem = s.mem := by unfold supplyInput; split <;> rfl

@[simp] theorem endInput_run : (endInput s).run = s.run := rfl
@[simp] theorem endInput_pc : (endInput s).pc = s.pc := rfl
@[simp] theorem endInput_mem : (endInput s).mem = s.mem := rfl
@[simp] theorem endInput_input : (endInput s).input = s.input := rfl
@[simp] theorem endInput_inputEnded : (endInput s).inputEnded = true := rfl

/-! ### hostReset -/

variable (entry : Word) (input : List Byte) (ended : Bool)

@[simp] theorem hostReset_pc : (hostReset entry input ended s).pc = entry := rfl
@[simp] theorem hostReset_run : (hostReset entry input ended s).run = .running := rfl
@[simp] theorem hostReset_halt : (hostReset entry input ended s).halt = none := rfl
@[simp] theorem hostReset_mem : (hostReset entry input ended s).mem = s.mem := rfl
@[simp] theorem hostReset_params : (hostReset entry input ended s).params = s.params := rfl
@[simp] theorem hostReset_instret : (hostReset entry input ended s).instret = 0 := rfl

end Sys2Proof.Machine
end

