-- ==== Sys2Proof/Laws/Memory.lean ====
section
/-! SUPPORT. The memory: a read after a write, the canonical form, byte order (spec/20_memory.md R52 to R55, R61). -/

namespace Sys2Proof.Machine

/-! ### One byte -/

/-- The one lemma on a byte read after a byte write. -/
theorem Memory.byteAt_put (m : Memory) (a x : Nat) (b : Byte) :
    (m.put a b).byteAt x = if x = a then some b else m.byteAt x := by
  induction m with
  | nil => simp [Memory.put, Memory.byteAt, eq_comm]
  | cons c m ih =>
    obtain ⟨k, v⟩ := c
    unfold Memory.put
    split
    · by_cases hx : x = a
      · simp [Memory.byteAt, hx]
      · simp [Memory.byteAt, hx, Ne.symm hx]
    · split
      · next h =>
        subst h
        by_cases hx : x = a
        · simp [Memory.byteAt, hx]
        · simp [Memory.byteAt, hx, Ne.symm hx]
      · next h =>
        by_cases hx : x = a
        · subst hx
          have : k ≠ x := fun e => h e.symm
          simp [Memory.byteAt, this, ih]
        · simp [Memory.byteAt, ih, hx]

/-- The addresses after a write. -/
theorem Memory.mem_put {m : Memory} {a : Nat} {b : Byte} {c : Host.Cell} (h : c ∈ m.put a b) : c.1 = a ∨ c ∈ m := by
  induction m with
  | nil => simp [Memory.put] at h; simp [h]
  | cons d m ih =>
    obtain ⟨k, v⟩ := d
    unfold Memory.put at h
    split at h
    · simp only [List.mem_cons] at h ⊢
      rcases h with h | h | h <;> simp [h]
    · split at h
      · simp only [List.mem_cons] at h ⊢
        rcases h with h | h <;> simp [h]
      · simp only [List.mem_cons] at h ⊢
        rcases h with h | h
        · simp [h]
        · rcases ih h with h | h <;> simp [h]

/-- A byte write at an address of the space keeps the canonical form. -/
theorem Memory.put_wf {m : Memory} (h : m.wf) {a : Nat} (ha : a < 2 ^ 32) (b : Byte) : (m.put a b).wf := by
  refine ⟨?_, fun c hc => ?_⟩
  · have hp := h.1
    clear h
    induction m with
    | nil => simp [Memory.put]
    | cons d m ih =>
      obtain ⟨k, v⟩ := d
      rw [List.pairwise_cons] at hp
      unfold Memory.put
      split
      · next hk =>
        rw [List.pairwise_cons, List.pairwise_cons]
        refine ⟨fun c hc => ?_, hp⟩
        rcases List.mem_cons.1 hc with rfl | hc
        · exact hk
        · exact Nat.lt_trans hk (hp.1 c hc)
      · split
        · next hk => subst hk; rw [List.pairwise_cons]; exact hp
        · next h1 h2 =>
          rw [List.pairwise_cons]
          refine ⟨fun c hc => ?_, ih hp.2⟩
          rcases Memory.mem_put hc with hc | hc
          · simp only [hc]; omega
          · exact hp.1 c hc
  · rcases Memory.mem_put hc with hc | hc
    · rw [hc]; exact ha
    · exact h.2 c hc

/-! ### Several bytes -/

/-- Offset `k` from the next address is offset `k + 1`. -/
theorem add_one_offset (x : Word) (k : Nat) : x + 1#32 + BitVec.ofNat 32 k = x + BitVec.ofNat 32 (k + 1) := by
  apply BitVec.eq_of_toNat_eq
  simp only [BitVec.toNat_add, BitVec.toNat_ofNat]
  omega

/-- Writing bytes keeps the canonical form. -/
theorem Memory.putBytes_wf {m : Memory} (h : m.wf) (x : Word) (bs : List Byte) : (m.putBytes x bs).wf := by
  induction bs generalizing m x with
  | nil => exact h
  | cons b bs ih => exact ih (Memory.put_wf h x.isLt b) _

/-- Reset memory is in canonical form. -/
theorem State.reset_mem_wf : State.reset.mem.wf := by decide

/-- A store keeps the canonical form. -/
theorem memWrite_wf {s t : State} {x v : Word} {n : Width} (h : s.mem.wf) (hw : s.memWrite x n v = some t) : t.mem.wf := by
  unfold State.memWrite at hw
  split at hw
  · cases hw; exact Memory.putBytes_wf h x _
  · cases hw

/-- Placing a word keeps the canonical form. -/
theorem placeWord_wf {s : State} (h : s.mem.wf) (w : Word) : (s.placeWord w).mem.wf := Memory.putBytes_wf h s.pc _

/-- Bytes are read exactly where each is mapped. -/
theorem Memory.bytesAt_isSome (m : Memory) (x : Word) (n : Nat) :
    (m.bytesAt x n).isSome = true ↔ ∀ k < n, (m.byteAt (x + BitVec.ofNat 32 k).toNat).isSome = true := by
  induction n generalizing x with
  | zero => simp [Memory.bytesAt]
  | succ n ih =>
    have hstep : (m.bytesAt x (n + 1)).isSome = true ↔
        (m.byteAt x.toNat).isSome = true ∧ (m.bytesAt (x + 1#32) n).isSome = true := by
      simp only [Memory.bytesAt]
      cases m.byteAt x.toNat <;> cases m.bytesAt (x + 1#32) n <;> simp
    rw [hstep, ih]
    constructor
    · rintro ⟨h0, h1⟩ k hk
      cases k with
      | zero => simpa using h0
      | succ k => rw [← add_one_offset]; exact h1 k (by omega)
    · intro h
      refine ⟨by simpa using h 0 (by omega), fun k hk => ?_⟩
      rw [add_one_offset]; exact h (k + 1) (by omega)

/-- Distinct offsets below 2^32 are distinct addresses. -/
theorem addr_ne_of_offset_ne (x : Word) {j k : Nat} (hj : j < 2 ^ 32) (hk : k < 2 ^ 32) (h : j ≠ k) :
    (x + BitVec.ofNat 32 j).toNat ≠ (x + BitVec.ofNat 32 k).toNat := by
  simp only [BitVec.toNat_add, BitVec.toNat_ofNat]
  have := x.isLt
  omega

/-- An address outside the written range reads as before. -/
theorem Memory.byteAt_putBytes_other (m : Memory) (x : Word) (bs : List Byte) (a : Nat)
    (h : ∀ k < bs.length, a ≠ (x + BitVec.ofNat 32 k).toNat) : (m.putBytes x bs).byteAt a = m.byteAt a := by
  induction bs generalizing m x with
  | nil => rfl
  | cons b bs ih =>
    have h0 : a ≠ x.toNat := by simpa using h 0 (by simp)
    rw [Memory.putBytes, ih _ _ (fun k hk => by rw [add_one_offset]; exact h (k + 1) (by simpa using hk)), Memory.byteAt_put,
      if_neg h0]

/-- Byte `k` of what was written reads back. -/
theorem Memory.byteAt_putBytes (m : Memory) (x : Word) (bs : List Byte) (hl : bs.length ≤ 2 ^ 32) (k : Nat)
    (hk : k < bs.length) : (m.putBytes x bs).byteAt (x + BitVec.ofNat 32 k).toNat = some bs[k] := by
  induction bs generalizing m x k with
  | nil => simp at hk
  | cons b bs ih =>
    simp only [List.length_cons] at hl hk
    cases k with
    | zero =>
      rw [Memory.putBytes, Memory.byteAt_putBytes_other, Memory.byteAt_put]
      · simp
      · intro j hj
        rw [add_one_offset]
        exact addr_ne_of_offset_ne x (by omega) (by omega) (by omega)
    | succ k =>
      rw [Memory.putBytes, ← add_one_offset x k]
      exact ih (m.put x.toNat b) (x + 1#32) (by omega) k (by omega)

/-- A write to mapped bytes maps nothing new and unmaps nothing. -/
theorem Memory.isSome_putBytes (m : Memory) (x : Word) (bs : List Byte) (hl : bs.length ≤ 2 ^ 32)
    (h : (m.bytesAt x bs.length).isSome = true) (a : Nat) :
    ((m.putBytes x bs).byteAt a).isSome = (m.byteAt a).isSome := by
  rw [Memory.bytesAt_isSome] at h
  by_cases ha : ∃ k < bs.length, a = (x + BitVec.ofNat 32 k).toNat
  · obtain ⟨k, hk, rfl⟩ := ha
    rw [Memory.byteAt_putBytes m x bs hl k hk, h k hk]; rfl
  · rw [Memory.byteAt_putBytes_other]
    intro k hk e
    exact ha ⟨k, hk, e⟩

/-! ### Byte order -/

@[simp] theorem leBytes_length (v : Word) (n : Nat) : (leBytes v n).length = n := by
  induction n generalizing v with
  | zero => rfl
  | succ n ih => simp [leBytes, ih]

/-- Byte `k` of a value in memory's order is its bits `8k+7:8k`. -/
theorem leBytes_getElem (v : Word) (n k : Nat) (h : k < (leBytes v n).length) :
    (leBytes v n)[k] = v.extractLsb' (8 * k) 8 := by
  induction n generalizing v k with
  | zero => simp at h
  | succ n ih =>
    cases k with
    | zero => ext i hi; simp [leBytes]
    | succ k =>
      simp only [leBytes, List.getElem_cons_succ]
      rw [ih]
      ext i hi
      simp [show 8 * (k + 1) + i = 8 + (8 * k + i) by ring]

end Sys2Proof.Machine
end

