-- ==== Sys2Proof/Laws/State.lean ====
section
/-! SUPPORT. One lemma per field per update of State, so that no later proof unfolds an update; and what each update
does to a register read, to an admission and to a memory read. -/

namespace Sys2Proof.Machine

variable (s : State)

/-! ### setPc -/

@[simp] theorem State.setPc_regs (x : Word) : (s.setPc x).regs = s.regs := rfl
@[simp] theorem State.setPc_pc (x : Word) : (s.setPc x).pc = x := rfl
@[simp] theorem State.setPc_run (x : Word) : (s.setPc x).run = s.run := rfl
@[simp] theorem State.setPc_halt (x : Word) : (s.setPc x).halt = s.halt := rfl
@[simp] theorem State.setPc_mem (x : Word) : (s.setPc x).mem = s.mem := rfl
@[simp] theorem State.setPc_input (x : Word) : (s.setPc x).input = s.input := rfl
@[simp] theorem State.setPc_inputEnded (x : Word) : (s.setPc x).inputEnded = s.inputEnded := rfl
@[simp] theorem State.setPc_output (x : Word) : (s.setPc x).output = s.output := rfl
@[simp] theorem State.setPc_instret (x : Word) : (s.setPc x).instret = s.instret := rfl
@[simp] theorem State.setPc_nTaken (x : Word) : (s.setPc x).nTaken = s.nTaken := rfl
@[simp] theorem State.setPc_nNotTaken (x : Word) : (s.setPc x).nNotTaken = s.nNotTaken := rfl
@[simp] theorem State.setPc_obs (x : Word) : (s.setPc x).obs = s.obs := rfl
@[simp] theorem State.setPc_params (x : Word) : (s.setPc x).params = s.params := rfl
@[simp] theorem State.setPc_reg (x : Word) (q : RegIdx) : (s.setPc x).reg q = s.reg q := rfl
@[simp] theorem State.setPc_memAdmit (p : Word) (k : AccessKind) (x : Word) (n : Width) :
    (s.setPc p).memAdmit k x n = s.memAdmit k x n := rfl

/-! ### setMem -/

@[simp] theorem State.setMem_regs (m : Memory) : (s.setMem m).regs = s.regs := rfl
@[simp] theorem State.setMem_pc (m : Memory) : (s.setMem m).pc = s.pc := rfl
@[simp] theorem State.setMem_run (m : Memory) : (s.setMem m).run = s.run := rfl
@[simp] theorem State.setMem_halt (m : Memory) : (s.setMem m).halt = s.halt := rfl
@[simp] theorem State.setMem_mem (m : Memory) : (s.setMem m).mem = m := rfl
@[simp] theorem State.setMem_input (m : Memory) : (s.setMem m).input = s.input := rfl
@[simp] theorem State.setMem_inputEnded (m : Memory) : (s.setMem m).inputEnded = s.inputEnded := rfl
@[simp] theorem State.setMem_output (m : Memory) : (s.setMem m).output = s.output := rfl
@[simp] theorem State.setMem_instret (m : Memory) : (s.setMem m).instret = s.instret := rfl
@[simp] theorem State.setMem_nTaken (m : Memory) : (s.setMem m).nTaken = s.nTaken := rfl
@[simp] theorem State.setMem_nNotTaken (m : Memory) : (s.setMem m).nNotTaken = s.nNotTaken := rfl
@[simp] theorem State.setMem_obs (m : Memory) : (s.setMem m).obs = s.obs := rfl
@[simp] theorem State.setMem_params (m : Memory) : (s.setMem m).params = s.params := rfl
@[simp] theorem State.setMem_reg (m : Memory) (q : RegIdx) : (s.setMem m).reg q = s.reg q := rfl

/-! ### setInput -/

@[simp] theorem State.setInput_regs (l : List Byte) : (s.setInput l).regs = s.regs := rfl
@[simp] theorem State.setInput_pc (l : List Byte) : (s.setInput l).pc = s.pc := rfl
@[simp] theorem State.setInput_run (l : List Byte) : (s.setInput l).run = s.run := rfl
@[simp] theorem State.setInput_halt (l : List Byte) : (s.setInput l).halt = s.halt := rfl
@[simp] theorem State.setInput_mem (l : List Byte) : (s.setInput l).mem = s.mem := rfl
@[simp] theorem State.setInput_input (l : List Byte) : (s.setInput l).input = l := rfl
@[simp] theorem State.setInput_inputEnded (l : List Byte) : (s.setInput l).inputEnded = s.inputEnded := rfl
@[simp] theorem State.setInput_output (l : List Byte) : (s.setInput l).output = s.output := rfl
@[simp] theorem State.setInput_instret (l : List Byte) : (s.setInput l).instret = s.instret := rfl
@[simp] theorem State.setInput_nTaken (l : List Byte) : (s.setInput l).nTaken = s.nTaken := rfl
@[simp] theorem State.setInput_nNotTaken (l : List Byte) : (s.setInput l).nNotTaken = s.nNotTaken := rfl
@[simp] theorem State.setInput_obs (l : List Byte) : (s.setInput l).obs = s.obs := rfl
@[simp] theorem State.setInput_params (l : List Byte) : (s.setInput l).params = s.params := rfl
@[simp] theorem State.setInput_reg (l : List Byte) (q : RegIdx) : (s.setInput l).reg q = s.reg q := rfl
@[simp] theorem State.setInput_memAdmit (l : List Byte) (k : AccessKind) (x : Word) (n : Width) :
    (s.setInput l).memAdmit k x n = s.memAdmit k x n := rfl

/-! ### setOutput -/

@[simp] theorem State.setOutput_regs (l : List Byte) : (s.setOutput l).regs = s.regs := rfl
@[simp] theorem State.setOutput_pc (l : List Byte) : (s.setOutput l).pc = s.pc := rfl
@[simp] theorem State.setOutput_run (l : List Byte) : (s.setOutput l).run = s.run := rfl
@[simp] theorem State.setOutput_halt (l : List Byte) : (s.setOutput l).halt = s.halt := rfl
@[simp] theorem State.setOutput_mem (l : List Byte) : (s.setOutput l).mem = s.mem := rfl
@[simp] theorem State.setOutput_input (l : List Byte) : (s.setOutput l).input = s.input := rfl
@[simp] theorem State.setOutput_inputEnded (l : List Byte) : (s.setOutput l).inputEnded = s.inputEnded := rfl
@[simp] theorem State.setOutput_output (l : List Byte) : (s.setOutput l).output = l := rfl
@[simp] theorem State.setOutput_instret (l : List Byte) : (s.setOutput l).instret = s.instret := rfl
@[simp] theorem State.setOutput_nTaken (l : List Byte) : (s.setOutput l).nTaken = s.nTaken := rfl
@[simp] theorem State.setOutput_nNotTaken (l : List Byte) : (s.setOutput l).nNotTaken = s.nNotTaken := rfl
@[simp] theorem State.setOutput_obs (l : List Byte) : (s.setOutput l).obs = s.obs := rfl
@[simp] theorem State.setOutput_params (l : List Byte) : (s.setOutput l).params = s.params := rfl
@[simp] theorem State.setOutput_reg (l : List Byte) (q : RegIdx) : (s.setOutput l).reg q = s.reg q := rfl
@[simp] theorem State.setOutput_memAdmit (l : List Byte) (k : AccessKind) (x : Word) (n : Width) :
    (s.setOutput l).memAdmit k x n = s.memAdmit k x n := rfl

/-! ### advance -/

@[simp] theorem State.advance_regs : (s.advance).regs = s.regs := rfl
@[simp] theorem State.advance_pc : (s.advance).pc = s.pc + 4#32 := rfl
@[simp] theorem State.advance_run : (s.advance).run = s.run := rfl
@[simp] theorem State.advance_halt : (s.advance).halt = s.halt := rfl
@[simp] theorem State.advance_mem : (s.advance).mem = s.mem := rfl
@[simp] theorem State.advance_input : (s.advance).input = s.input := rfl
@[simp] theorem State.advance_inputEnded : (s.advance).inputEnded = s.inputEnded := rfl
@[simp] theorem State.advance_output : (s.advance).output = s.output := rfl
@[simp] theorem State.advance_instret : (s.advance).instret = s.instret := rfl
@[simp] theorem State.advance_nTaken : (s.advance).nTaken = s.nTaken := rfl
@[simp] theorem State.advance_nNotTaken : (s.advance).nNotTaken = s.nNotTaken := rfl
@[simp] theorem State.advance_obs : (s.advance).obs = s.obs := rfl
@[simp] theorem State.advance_params : (s.advance).params = s.params := rfl
@[simp] theorem State.advance_reg (q : RegIdx) : (s.advance).reg q = s.reg q := rfl
@[simp] theorem State.advance_memAdmit (k : AccessKind) (x : Word) (n : Width) :
    (s.advance).memAdmit k x n = s.memAdmit k x n := rfl

/-! ### drive -/

@[simp] theorem State.drive_regs (w : Word) : (s.drive w).regs = s.regs := rfl
@[simp] theorem State.drive_pc (w : Word) : (s.drive w).pc = s.pc := rfl
@[simp] theorem State.drive_run (w : Word) : (s.drive w).run = s.run := rfl
@[simp] theorem State.drive_halt (w : Word) : (s.drive w).halt = s.halt := rfl
@[simp] theorem State.drive_mem (w : Word) : (s.drive w).mem = s.mem := rfl
@[simp] theorem State.drive_input (w : Word) : (s.drive w).input = s.input := rfl
@[simp] theorem State.drive_inputEnded (w : Word) : (s.drive w).inputEnded = s.inputEnded := rfl
@[simp] theorem State.drive_output (w : Word) : (s.drive w).output = s.output := rfl
@[simp] theorem State.drive_instret (w : Word) : (s.drive w).instret = s.instret := rfl
@[simp] theorem State.drive_nTaken (w : Word) : (s.drive w).nTaken = s.nTaken := rfl
@[simp] theorem State.drive_nNotTaken (w : Word) : (s.drive w).nNotTaken = s.nNotTaken := rfl
@[simp] theorem State.drive_obs (w : Word) : (s.drive w).obs = { retire := false, stepPc := s.pc, stepW := w, ctrl := false, taken := none } := rfl
@[simp] theorem State.drive_params (w : Word) : (s.drive w).params = s.params := rfl
@[simp] theorem State.drive_reg (w : Word) (q : RegIdx) : (s.drive w).reg q = s.reg q := rfl
@[simp] theorem State.drive_memAdmit (w : Word) (k : AccessKind) (x : Word) (n : Width) :
    (s.drive w).memAdmit k x n = s.memAdmit k x n := rfl

/-! ### noRetire -/

@[simp] theorem State.noRetire_regs : (s.noRetire).regs = s.regs := rfl
@[simp] theorem State.noRetire_pc : (s.noRetire).pc = s.pc := rfl
@[simp] theorem State.noRetire_run : (s.noRetire).run = s.run := rfl
@[simp] theorem State.noRetire_halt : (s.noRetire).halt = s.halt := rfl
@[simp] theorem State.noRetire_mem : (s.noRetire).mem = s.mem := rfl
@[simp] theorem State.noRetire_input : (s.noRetire).input = s.input := rfl
@[simp] theorem State.noRetire_inputEnded : (s.noRetire).inputEnded = s.inputEnded := rfl
@[simp] theorem State.noRetire_output : (s.noRetire).output = s.output := rfl
@[simp] theorem State.noRetire_instret : (s.noRetire).instret = s.instret := rfl
@[simp] theorem State.noRetire_nTaken : (s.noRetire).nTaken = s.nTaken := rfl
@[simp] theorem State.noRetire_nNotTaken : (s.noRetire).nNotTaken = s.nNotTaken := rfl
@[simp] theorem State.noRetire_obs : (s.noRetire).obs = { s.obs with retire := false, ctrl := false, taken := none } := rfl
@[simp] theorem State.noRetire_params : (s.noRetire).params = s.params := rfl
@[simp] theorem State.noRetire_reg (q : RegIdx) : (s.noRetire).reg q = s.reg q := rfl
@[simp] theorem State.noRetire_memAdmit (k : AccessKind) (x : Word) (n : Width) :
    (s.noRetire).memAdmit k x n = s.memAdmit k x n := rfl

/-! ### retire -/

@[simp] theorem State.retire_regs : (s.retire).regs = s.regs := rfl
@[simp] theorem State.retire_pc : (s.retire).pc = s.pc := rfl
@[simp] theorem State.retire_run : (s.retire).run = s.run := rfl
@[simp] theorem State.retire_halt : (s.retire).halt = s.halt := rfl
@[simp] theorem State.retire_mem : (s.retire).mem = s.mem := rfl
@[simp] theorem State.retire_input : (s.retire).input = s.input := rfl
@[simp] theorem State.retire_inputEnded : (s.retire).inputEnded = s.inputEnded := rfl
@[simp] theorem State.retire_output : (s.retire).output = s.output := rfl
@[simp] theorem State.retire_instret : (s.retire).instret = s.instret + 1 := rfl
@[simp] theorem State.retire_nTaken : (s.retire).nTaken = s.nTaken := rfl
@[simp] theorem State.retire_nNotTaken : (s.retire).nNotTaken = s.nNotTaken := rfl
@[simp] theorem State.retire_obs : (s.retire).obs = { s.obs with retire := true, ctrl := false, taken := none } := rfl
@[simp] theorem State.retire_params : (s.retire).params = s.params := rfl
@[simp] theorem State.retire_reg (q : RegIdx) : (s.retire).reg q = s.reg q := rfl
@[simp] theorem State.retire_memAdmit (k : AccessKind) (x : Word) (n : Width) :
    (s.retire).memAdmit k x n = s.memAdmit k x n := rfl

/-! ### retireTransfer -/

@[simp] theorem State.retireTransfer_regs (c : Bool) : (s.retireTransfer c).regs = s.regs := rfl
@[simp] theorem State.retireTransfer_pc (c : Bool) : (s.retireTransfer c).pc = s.pc := rfl
@[simp] theorem State.retireTransfer_run (c : Bool) : (s.retireTransfer c).run = s.run := rfl
@[simp] theorem State.retireTransfer_halt (c : Bool) : (s.retireTransfer c).halt = s.halt := rfl
@[simp] theorem State.retireTransfer_mem (c : Bool) : (s.retireTransfer c).mem = s.mem := rfl
@[simp] theorem State.retireTransfer_input (c : Bool) : (s.retireTransfer c).input = s.input := rfl
@[simp] theorem State.retireTransfer_inputEnded (c : Bool) : (s.retireTransfer c).inputEnded = s.inputEnded := rfl
@[simp] theorem State.retireTransfer_output (c : Bool) : (s.retireTransfer c).output = s.output := rfl
@[simp] theorem State.retireTransfer_instret (c : Bool) : (s.retireTransfer c).instret = s.instret + 1 := rfl
@[simp] theorem State.retireTransfer_nTaken (c : Bool) : (s.retireTransfer c).nTaken = (if c then s.nTaken + 1 else s.nTaken) := rfl
@[simp] theorem State.retireTransfer_nNotTaken (c : Bool) : (s.retireTransfer c).nNotTaken = (if c then s.nNotTaken else s.nNotTaken + 1) := rfl
@[simp] theorem State.retireTransfer_obs (c : Bool) : (s.retireTransfer c).obs = { s.obs with retire := true, ctrl := true, taken := some c } := rfl
@[simp] theorem State.retireTransfer_params (c : Bool) : (s.retireTransfer c).params = s.params := rfl
@[simp] theorem State.retireTransfer_reg (c : Bool) (q : RegIdx) : (s.retireTransfer c).reg q = s.reg q := rfl
@[simp] theorem State.retireTransfer_memAdmit (c : Bool) (k : AccessKind) (x : Word) (n : Width) :
    (s.retireTransfer c).memAdmit k x n = s.memAdmit k x n := rfl

/-! ### haltWith -/

@[simp] theorem State.haltWith_regs (r : HaltRecord) : (s.haltWith r).regs = s.regs := rfl
@[simp] theorem State.haltWith_pc (r : HaltRecord) : (s.haltWith r).pc = s.pc := rfl
@[simp] theorem State.haltWith_run (r : HaltRecord) : (s.haltWith r).run = .halted := rfl
@[simp] theorem State.haltWith_halt (r : HaltRecord) : (s.haltWith r).halt = some r := rfl
@[simp] theorem State.haltWith_mem (r : HaltRecord) : (s.haltWith r).mem = s.mem := rfl
@[simp] theorem State.haltWith_input (r : HaltRecord) : (s.haltWith r).input = s.input := rfl
@[simp] theorem State.haltWith_inputEnded (r : HaltRecord) : (s.haltWith r).inputEnded = s.inputEnded := rfl
@[simp] theorem State.haltWith_output (r : HaltRecord) : (s.haltWith r).output = s.output := rfl
@[simp] theorem State.haltWith_instret (r : HaltRecord) : (s.haltWith r).instret = s.instret := rfl
@[simp] theorem State.haltWith_nTaken (r : HaltRecord) : (s.haltWith r).nTaken = s.nTaken := rfl
@[simp] theorem State.haltWith_nNotTaken (r : HaltRecord) : (s.haltWith r).nNotTaken = s.nNotTaken := rfl
@[simp] theorem State.haltWith_obs (r : HaltRecord) : (s.haltWith r).obs = { s.obs with retire := false, ctrl := false, taken := none } := rfl
@[simp] theorem State.haltWith_params (r : HaltRecord) : (s.haltWith r).params = s.params := rfl
@[simp] theorem State.haltWith_reg (r : HaltRecord) (q : RegIdx) : (s.haltWith r).reg q = s.reg q := rfl
@[simp] theorem State.haltWith_memAdmit (r : HaltRecord) (k : AccessKind) (x : Word) (n : Width) :
    (s.haltWith r).memAdmit k x n = s.memAdmit k x n := rfl

/-! ### setReg -/

@[simp] theorem State.setReg_pc (r : RegIdx) (v : Word) : (s.setReg r v).pc = s.pc := by
  unfold State.setReg; split <;> rfl
@[simp] theorem State.setReg_run (r : RegIdx) (v : Word) : (s.setReg r v).run = s.run := by
  unfold State.setReg; split <;> rfl
@[simp] theorem State.setReg_halt (r : RegIdx) (v : Word) : (s.setReg r v).halt = s.halt := by
  unfold State.setReg; split <;> rfl
@[simp] theorem State.setReg_mem (r : RegIdx) (v : Word) : (s.setReg r v).mem = s.mem := by
  unfold State.setReg; split <;> rfl
@[simp] theorem State.setReg_input (r : RegIdx) (v : Word) : (s.setReg r v).input = s.input := by
  unfold State.setReg; split <;> rfl
@[simp] theorem State.setReg_inputEnded (r : RegIdx) (v : Word) : (s.setReg r v).inputEnded = s.inputEnded := by
  unfold State.setReg; split <;> rfl
@[simp] theorem State.setReg_output (r : RegIdx) (v : Word) : (s.setReg r v).output = s.output := by
  unfold State.setReg; split <;> rfl
@[simp] theorem State.setReg_instret (r : RegIdx) (v : Word) : (s.setReg r v).instret = s.instret := by
  unfold State.setReg; split <;> rfl
@[simp] theorem State.setReg_nTaken (r : RegIdx) (v : Word) : (s.setReg r v).nTaken = s.nTaken := by
  unfold State.setReg; split <;> rfl
@[simp] theorem State.setReg_nNotTaken (r : RegIdx) (v : Word) : (s.setReg r v).nNotTaken = s.nNotTaken := by
  unfold State.setReg; split <;> rfl
@[simp] theorem State.setReg_obs (r : RegIdx) (v : Word) : (s.setReg r v).obs = s.obs := by
  unfold State.setReg; split <;> rfl
@[simp] theorem State.setReg_params (r : RegIdx) (v : Word) : (s.setReg r v).params = s.params := by
  unfold State.setReg; split <;> rfl
@[simp] theorem State.setReg_memAdmit (r : RegIdx) (v : Word) (k : AccessKind) (x : Word) (n : Width) :
    (s.setReg r v).memAdmit k x n = s.memAdmit k x n := by
  unfold State.setReg; split <;> rfl

end Sys2Proof.Machine
end

