-- ==== Sys2Proof/Laws/Registers.lean ====
section
/-! SUPPORT. The register file: what a read gives after a write (spec/10_state.md R21, R22). -/

namespace Sys2Proof.Machine

@[simp] theorem State.reg_zero (s : State) : s.reg 0#5 = 0#32 := by simp [State.reg]

/-- Two register numbers that are not 0 with one slot are one register. -/
theorem regIdx_eq_of_slot {r q : RegIdx} (hr : r ≠ 0#5) (hq : q ≠ 0#5) (h : r.toNat - 1 = q.toNat - 1) : r = q := by
  have h1 : r.toNat ≠ 0 := fun h0 => hr (BitVec.eq_of_toNat_eq h0)
  have h2 : q.toNat ≠ 0 := fun h0 => hq (BitVec.eq_of_toNat_eq h0)
  exact BitVec.eq_of_toNat_eq (by omega)

theorem State.reg_setReg_same (s : State) {r : RegIdx} (h : r ≠ 0#5) (v : Word) : (s.setReg r v).reg r = v := by
  simp [State.reg, State.setReg, h]

theorem State.reg_setReg_other (s : State) {r q : RegIdx} (h : q ≠ r) (v : Word) :
    (s.setReg r v).reg q = s.reg q := by
  by_cases hr : r = 0#5
  · simp [State.setReg, hr]
  · by_cases hq : q = 0#5
    · simp [hq]
    · have hs : r.toNat - 1 ≠ q.toNat - 1 := fun hs => h (regIdx_eq_of_slot hr hq hs).symm
      simp [State.reg, State.setReg, hr, hq, hs]

/-- The one lemma on a register read after a write. -/
theorem State.reg_setReg (s : State) (r q : RegIdx) (v : Word) :
    (s.setReg r v).reg q = if q = r then (if r = 0#5 then 0#32 else v) else s.reg q := by
  by_cases h : q = r
  · subst h
    by_cases hq : q = 0#5
    · simp [hq]
    · simp [hq, State.reg_setReg_same]
  · simp [h, State.reg_setReg_other]

theorem State.resetWith_reg (entry : Word) (m : Memory) (input : List Byte) (e : Bool) (p : Params) (r : RegIdx) :
    (State.resetWith entry m input e p).reg r = 0#32 := by
  unfold State.reg State.resetWith
  split <;> simp

end Sys2Proof.Machine
end

