-- ==== Sys2Proof/Laws/Ops.lean ====
section
/-! SUPPORT. What each shared operation of the meanings can do, said once: the memory port, the loads and stores, the
environment call. -/

namespace Sys2Proof.Machine

/-! ### The memory port (spec/20_memory.md R51 to R54) -/

section Port

variable (s : State) (kind : AccessKind) (x : Word) (n : Width)

/-- An access is admitted where the policy admits it and every byte is mapped (R51, R59). -/
theorem memAdmit_iff : s.memAdmit kind x n = true ↔ s.params.policy.admits kind x n = true ∧
    ∀ k < n.bytes, (s.mem.byteAt (x + BitVec.ofNat 32 k).toNat).isSome = true := by
  rw [State.memAdmit, Bool.and_eq_true, Memory.bytesAt_isSome]

/-- The policy admits a request where the address is aligned if alignment is enforced, and no refused range covers it. -/
theorem AdmitPolicy.admits_iff (p : AdmitPolicy) : p.admits kind x n = true ↔
    (p.enforceAlignment = true → n.bytes ∣ x.toNat) ∧ ∀ r ∈ p.refused, r.covers kind x n = false := by
  unfold AdmitPolicy.admits
  cases p.enforceAlignment <;> simp [Nat.dvd_iff_mod_eq_zero]

/-- What a refused range covers. -/
theorem RefusedRange.covers_iff (r : RefusedRange) : r.covers kind x n = true ↔
    r.kind = kind ∧ r.width = n ∧ r.first.toNat ≤ x.toNat ∧ x.toNat ≤ r.last.toNat := by
  simp [RefusedRange.covers, BitVec.le_def, and_assoc]

/-- A read answers exactly where the access is admitted (R52). -/
theorem memRead_isSome : (s.memRead kind x n).isSome = s.memAdmit kind x n := by
  unfold State.memRead State.memAdmit
  cases s.params.policy.admits kind x n <;> simp

theorem memRead_eq_none_iff : s.memRead kind x n = none ↔ s.memAdmit kind x n = false := by
  rw [← memRead_isSome]; simp

variable {s x}

/-- One byte read (R52). -/
theorem memRead_one {b : Byte} (ha : s.params.policy.admits kind x .one = true) (h0 : s.mem.byteAt x.toNat = some b) :
    s.memRead kind x .one = some (b.setWidth 32) := by
  simp [State.memRead, ha, Width.bytes, Memory.bytesAt, h0, leValue]

/-- Two bytes read, the lower address in bits 7:0 (R55). -/
theorem memRead_two {b0 b1 : Byte} (ha : s.params.policy.admits kind x .two = true)
    (h0 : s.mem.byteAt x.toNat = some b0) (h1 : s.mem.byteAt (x + 1#32).toNat = some b1) :
    s.memRead kind x .two = some (b1.setWidth 32 <<< 8 ||| b0.setWidth 32) := by
  simp only [State.memRead, ha, if_true, Width.bytes, Memory.bytesAt, h0, h1, leValue, Option.map_some]
  simp

/-- Four bytes read (R55). -/
theorem memRead_four {b0 b1 b2 b3 : Byte} (ha : s.params.policy.admits kind x .four = true)
    (h0 : s.mem.byteAt x.toNat = some b0) (h1 : s.mem.byteAt (x + 1#32).toNat = some b1)
    (h2 : s.mem.byteAt (x + 2#32).toNat = some b2) (h3 : s.mem.byteAt (x + 3#32).toNat = some b3) :
    s.memRead kind x .four = some (wordOfBytes b0 b1 b2 b3) := by
  have e2 : x + 1#32 + 1#32 = x + 2#32 := by rw [BitVec.add_assoc]; rfl
  have e3 : x + 2#32 + 1#32 = x + 3#32 := by rw [BitVec.add_assoc]; rfl
  simp only [State.memRead, ha, if_true, Width.bytes, Memory.bytesAt, h0, h1, h2, h3, e2, e3, leValue, Option.map_some]
  congr 1
  ext i hi
  simp only [wordOfBytes, ← BitVec.getLsbD_eq_getElem, BitVec.getLsbD_append, BitVec.getLsbD_or,
    BitVec.getLsbD_shiftLeft, BitVec.getLsbD_setWidth]
  grind

/-- A four-byte read that answers found four mapped bytes. -/
theorem memRead_four_inv {w : Word} (h : s.memRead kind x .four = some w) :
    s.params.policy.admits kind x .four = true ∧ ∃ b0 b1 b2 b3 : Byte, s.mem.byteAt x.toNat = some b0 ∧
      s.mem.byteAt (x + 1#32).toNat = some b1 ∧ s.mem.byteAt (x + 2#32).toNat = some b2 ∧
      s.mem.byteAt (x + 3#32).toNat = some b3 ∧ w = wordOfBytes b0 b1 b2 b3 := by
  have hs : s.memAdmit kind x .four = true := by rw [← memRead_isSome, h]; rfl
  obtain ⟨ha, hm⟩ := (memAdmit_iff s kind x .four).1 hs
  refine ⟨ha, ?_⟩
  have get : ∀ k < 4, ∃ b, s.mem.byteAt (x + BitVec.ofNat 32 k).toNat = some b :=
    fun k hk => Option.isSome_iff_exists.1 (hm k hk)
  obtain ⟨b0, h0⟩ := get 0 (by decide)
  obtain ⟨b1, h1⟩ := get 1 (by decide)
  obtain ⟨b2, h2⟩ := get 2 (by decide)
  obtain ⟨b3, h3⟩ := get 3 (by decide)
  rw [BitVec.add_zero] at h0
  refine ⟨b0, b1, b2, b3, h0, h1, h2, h3, ?_⟩
  rw [memRead_four kind ha h0 h1 h2 h3] at h
  exact (Option.some.inj h).symm

/-- An admitted write puts its bytes and changes nothing else (R53). -/
theorem memWrite_of_admit {v : Word} (h : s.memAdmit .store x n = true) :
    s.memWrite x n v = some (s.setMem (s.mem.putBytes x (leBytes v n.bytes))) := by
  simp [State.memWrite, h]

/-- A refused write is none (R53). -/
theorem memWrite_of_refuse {v : Word} (h : s.memAdmit .store x n = false) : s.memWrite x n v = none := by
  simp [State.memWrite, h]

end Port

/-! ### Loads and stores -/

section LoadStore

variable {s t : State} {rd : RegIdx} {x v : Word} {n : Width} {ext : Word → Word}

theorem loadAt_of_read (h : s.memRead .load x n = some v) : loadAt rd x n ext s = writeback rd (ext v) s := by
  simp [loadAt, h]

theorem loadAt_of_refuse (h : s.memAdmit .load x n = false) : loadAt rd x n ext s = raiseMemoryFault .load x n s := by
  simp [loadAt, (memRead_eq_none_iff s .load x n).2 h]

/-- Everything a load can do. -/
theorem loadAt_cases (h : loadAt rd x n ext s = .next t) :
    (s.memAdmit .load x n = false ∧
      t = s.haltWith (.memoryFault .load x n s.pc (some s.obs.stepW) s.instret)) ∨
    ∃ v, s.memRead .load x n = some v ∧ t = (s.setReg rd (ext v)).advance.retire := by
  cases hr : s.memRead .load x n with
  | none =>
    rw [loadAt_of_refuse ((memRead_eq_none_iff s .load x n).1 hr)] at h
    exact .inl ⟨(memRead_eq_none_iff s .load x n).1 hr, (Host.Outcome.next.inj h).symm⟩
  | some v =>
    rw [loadAt_of_read hr] at h
    exact .inr ⟨v, rfl, (Host.Outcome.next.inj h).symm⟩

theorem storeAt_of_admit (h : s.memAdmit .store x n = true) : storeAt x n v s =
    .next ((s.setMem (s.mem.putBytes x (leBytes v n.bytes))).advance).retire := by
  simp [storeAt, memWrite_of_admit n h]

theorem storeAt_of_refuse (h : s.memAdmit .store x n = false) : storeAt x n v s = raiseMemoryFault .store x n s := by
  simp [storeAt, memWrite_of_refuse n h]

/-- Everything a store can do. -/
theorem storeAt_cases (h : storeAt x n v s = .next t) :
    (s.memAdmit .store x n = false ∧
      t = s.haltWith (.memoryFault .store x n s.pc (some s.obs.stepW) s.instret)) ∨
    (s.memAdmit .store x n = true ∧
      t = ((s.setMem (s.mem.putBytes x (leBytes v n.bytes))).advance).retire) := by
  cases ha : s.memAdmit .store x n with
  | false => rw [storeAt_of_refuse ha] at h; exact .inl ⟨rfl, (Host.Outcome.next.inj h).symm⟩
  | true => rw [storeAt_of_admit ha] at h; exact .inr ⟨rfl, (Host.Outcome.next.inj h).symm⟩

end LoadStore

/-! ### The environment call (spec/48_ecall.md R220 to R225) -/

section Ecall

variable {s : State}

theorem execEcall_read (h : s.reg 17#5 = 1#32) : execEcall s = ecallRead s := if_pos h

theorem execEcall_write (h : s.reg 17#5 = 2#32) : execEcall s = ecallWrite s := by
  have h2 : s.reg ecallNumReg = callWrite := h
  unfold execEcall ecallService
  rw [h2, if_neg (by decide), if_pos rfl]

theorem execEcall_exit (h : s.reg 17#5 = 3#32 ∨ s.reg 17#5 = 93#32) : execEcall s = haltExit (s.reg 17#5) s := by
  have h3 : s.reg ecallNumReg = callExit ∨ s.reg ecallNumReg = callExit93 := h
  have h1 : s.reg ecallNumReg ≠ callRead := by rcases h3 with e | e <;> rw [e] <;> decide
  have h2 : s.reg ecallNumReg ≠ callWrite := by rcases h3 with e | e <;> rw [e] <;> decide
  unfold execEcall ecallService
  rw [if_neg h1, if_neg h2, if_pos h3]
  rfl

theorem execEcall_unknown (h1 : s.reg 17#5 ≠ 1#32) (h2 : s.reg 17#5 ≠ 2#32) (h3 : s.reg 17#5 ≠ 3#32)
    (h4 : s.reg 17#5 ≠ 93#32) : execEcall s = ecallUnknown (s.reg 17#5) s := by
  have n1 : s.reg ecallNumReg ≠ callRead := h1
  have n2 : s.reg ecallNumReg ≠ callWrite := h2
  have n3 : ¬(s.reg ecallNumReg = callExit ∨ s.reg ecallNumReg = callExit93) := not_or.2 ⟨h3, h4⟩
  unfold execEcall ecallService
  rw [if_neg n1, if_neg n2, if_neg n3]
  rfl

theorem ecallRead_byte {b : Byte} {rest : List Byte} (h : s.input = b :: rest) :
    ecallRead s = writeback 10#5 (b.setWidth 32) (s.setInput rest) := by
  simp [ecallRead, getChar, h, ecallRetReg]

theorem ecallRead_end (h : s.input = []) (he : s.inputEnded = true) :
    ecallRead s = writeback 10#5 s.params.eofValue s := by simp [ecallRead, getChar, h, he, ecallRetReg]

theorem ecallRead_hold (h : s.input = []) (he : s.inputEnded = false) : ecallRead s = .next s.noRetire := by
  simp [ecallRead, getChar, h, he]

end Ecall

/-- Everything an environment call can do: read a byte, read the end of the input, hold, write, exit, or be
unrecognised. -/
theorem ecall_cases {s t : State} (h : execEcall s = .next t) :
    (s.reg 17#5 = 1#32 ∧ ∃ b rest, s.input = b :: rest ∧
      t = ((s.setInput rest).setReg 10#5 (b.setWidth 32)).advance.retire) ∨
    (s.reg 17#5 = 1#32 ∧ s.input = [] ∧ s.inputEnded = true ∧
      t = (s.setReg 10#5 s.params.eofValue).advance.retire) ∨
    (s.reg 17#5 = 1#32 ∧ s.input = [] ∧ s.inputEnded = false ∧ t = s.noRetire) ∨
    (s.reg 17#5 = 2#32 ∧ t = (putChar ((s.reg 10#5).setWidth 8) s).advance.retire) ∨
    ((s.reg 17#5 = 3#32 ∨ s.reg 17#5 = 93#32) ∧ t = s.advance.haltWith (.exit (s.reg 17#5) s.pc)) ∨
    (s.reg 17#5 ≠ 1#32 ∧ s.reg 17#5 ≠ 2#32 ∧ s.reg 17#5 ≠ 3#32 ∧ s.reg 17#5 ≠ 93#32 ∧
      t = s.haltWith (.unrecognizedSyscall (s.reg 17#5) s.pc s.obs.stepW s.instret)) := by
  by_cases h1 : s.reg 17#5 = 1#32
  · rw [execEcall_read h1] at h
    cases hin : s.input with
    | cons b rest =>
      rw [ecallRead_byte hin] at h
      exact .inl ⟨h1, b, rest, rfl, (Host.Outcome.next.inj h).symm⟩
    | nil =>
      cases he : s.inputEnded with
      | true =>
        rw [ecallRead_end hin he] at h
        exact .inr (.inl ⟨h1, rfl, rfl, (Host.Outcome.next.inj h).symm⟩)
      | false =>
        rw [ecallRead_hold hin he] at h
        exact .inr (.inr (.inl ⟨h1, rfl, rfl, (Host.Outcome.next.inj h).symm⟩))
  by_cases h2 : s.reg 17#5 = 2#32
  · rw [execEcall_write h2] at h
    exact .inr (.inr (.inr (.inl ⟨h2, (Host.Outcome.next.inj h).symm⟩)))
  by_cases h3 : s.reg 17#5 = 3#32 ∨ s.reg 17#5 = 93#32
  · rw [execEcall_exit h3] at h
    exact .inr (.inr (.inr (.inr (.inl ⟨h3, (Host.Outcome.next.inj h).symm⟩))))
  · rw [not_or] at h3
    rw [execEcall_unknown h1 h2 h3.1 h3.2] at h
    exact .inr (.inr (.inr (.inr (.inr ⟨h1, h2, h3.1, h3.2, (Host.Outcome.next.inj h).symm⟩))))

end Sys2Proof.Machine
end

