-- ==== Sys2Proof/Laws/PerInstr.lean ====
section
/-! SUPPORT. The per-instruction family `EncodeRow`: the encoded word matches the row of spec/30_encoding.md R92 that
stands for the instruction. -/

namespace Sys2Proof.Laws.EncodeRow

/-- The word of an instruction matches its row of the routing table. -/
def Statement (i : Instr) : Prop := encode i &&& i.row.mask = i.row.value

theorem add (rd rs1 rs2 : RegIdx) : Statement (.add rd rs1 rs2) :=
  (and_mask_funct7 (encR 0x00 rs2 rs1 0 rd 0x33)).trans (by simp; rfl)

theorem sub (rd rs1 rs2 : RegIdx) : Statement (.sub rd rs1 rs2) :=
  (and_mask_funct7 (encR 0x20 rs2 rs1 0 rd 0x33)).trans (by simp; rfl)

theorem sll (rd rs1 rs2 : RegIdx) : Statement (.sll rd rs1 rs2) :=
  (and_mask_funct7 (encR 0x00 rs2 rs1 1 rd 0x33)).trans (by simp; rfl)

theorem slt (rd rs1 rs2 : RegIdx) : Statement (.slt rd rs1 rs2) :=
  (and_mask_funct7 (encR 0x00 rs2 rs1 2 rd 0x33)).trans (by simp; rfl)

theorem sltu (rd rs1 rs2 : RegIdx) : Statement (.sltu rd rs1 rs2) :=
  (and_mask_funct7 (encR 0x00 rs2 rs1 3 rd 0x33)).trans (by simp; rfl)

theorem xor (rd rs1 rs2 : RegIdx) : Statement (.xor rd rs1 rs2) :=
  (and_mask_funct7 (encR 0x00 rs2 rs1 4 rd 0x33)).trans (by simp; rfl)

theorem srl (rd rs1 rs2 : RegIdx) : Statement (.srl rd rs1 rs2) :=
  (and_mask_funct7 (encR 0x00 rs2 rs1 5 rd 0x33)).trans (by simp; rfl)

theorem sra (rd rs1 rs2 : RegIdx) : Statement (.sra rd rs1 rs2) :=
  (and_mask_funct7 (encR 0x20 rs2 rs1 5 rd 0x33)).trans (by simp; rfl)

theorem or (rd rs1 rs2 : RegIdx) : Statement (.or rd rs1 rs2) :=
  (and_mask_funct7 (encR 0x00 rs2 rs1 6 rd 0x33)).trans (by simp; rfl)

theorem and (rd rs1 rs2 : RegIdx) : Statement (.and rd rs1 rs2) :=
  (and_mask_funct7 (encR 0x00 rs2 rs1 7 rd 0x33)).trans (by simp; rfl)

theorem mul (rd rs1 rs2 : RegIdx) : Statement (.mul rd rs1 rs2) :=
  (and_mask_funct7 (encR 0x01 rs2 rs1 0 rd 0x33)).trans (by simp; rfl)

theorem mulh (rd rs1 rs2 : RegIdx) : Statement (.mulh rd rs1 rs2) :=
  (and_mask_funct7 (encR 0x01 rs2 rs1 1 rd 0x33)).trans (by simp; rfl)

theorem mulhsu (rd rs1 rs2 : RegIdx) : Statement (.mulhsu rd rs1 rs2) :=
  (and_mask_funct7 (encR 0x01 rs2 rs1 2 rd 0x33)).trans (by simp; rfl)

theorem mulhu (rd rs1 rs2 : RegIdx) : Statement (.mulhu rd rs1 rs2) :=
  (and_mask_funct7 (encR 0x01 rs2 rs1 3 rd 0x33)).trans (by simp; rfl)

theorem div (rd rs1 rs2 : RegIdx) : Statement (.div rd rs1 rs2) :=
  (and_mask_funct7 (encR 0x01 rs2 rs1 4 rd 0x33)).trans (by simp; rfl)

theorem divu (rd rs1 rs2 : RegIdx) : Statement (.divu rd rs1 rs2) :=
  (and_mask_funct7 (encR 0x01 rs2 rs1 5 rd 0x33)).trans (by simp; rfl)

theorem rem (rd rs1 rs2 : RegIdx) : Statement (.rem rd rs1 rs2) :=
  (and_mask_funct7 (encR 0x01 rs2 rs1 6 rd 0x33)).trans (by simp; rfl)

theorem remu (rd rs1 rs2 : RegIdx) : Statement (.remu rd rs1 rs2) :=
  (and_mask_funct7 (encR 0x01 rs2 rs1 7 rd 0x33)).trans (by simp; rfl)

theorem addi (rd rs1 : RegIdx) (imm : Word) : Statement (.addi rd rs1 imm) :=
  (and_mask_funct3 (encI imm rs1 0 rd 0x13)).trans (by simp; rfl)

theorem slli (rd rs1 : RegIdx) (shamt : BitVec 5) : Statement (.slli rd rs1 shamt) :=
  (and_mask_funct3 (encR 0x00 shamt rs1 1 rd 0x13)).trans (by simp; rfl)

theorem slti (rd rs1 : RegIdx) (imm : Word) : Statement (.slti rd rs1 imm) :=
  (and_mask_funct3 (encI imm rs1 2 rd 0x13)).trans (by simp; rfl)

theorem sltiu (rd rs1 : RegIdx) (imm : Word) : Statement (.sltiu rd rs1 imm) :=
  (and_mask_funct3 (encI imm rs1 3 rd 0x13)).trans (by simp; rfl)

theorem xori (rd rs1 : RegIdx) (imm : Word) : Statement (.xori rd rs1 imm) :=
  (and_mask_funct3 (encI imm rs1 4 rd 0x13)).trans (by simp; rfl)

theorem srli (rd rs1 : RegIdx) (shamt : BitVec 5) : Statement (.srli rd rs1 shamt) :=
  (and_mask_bit30 (encR 0x00 shamt rs1 5 rd 0x13)).trans (by simp; rfl)

theorem srai (rd rs1 : RegIdx) (shamt : BitVec 5) : Statement (.srai rd rs1 shamt) :=
  (and_mask_bit30 (encR 0x20 shamt rs1 5 rd 0x13)).trans (by simp; rfl)

theorem ori (rd rs1 : RegIdx) (imm : Word) : Statement (.ori rd rs1 imm) :=
  (and_mask_funct3 (encI imm rs1 6 rd 0x13)).trans (by simp; rfl)

theorem andi (rd rs1 : RegIdx) (imm : Word) : Statement (.andi rd rs1 imm) :=
  (and_mask_funct3 (encI imm rs1 7 rd 0x13)).trans (by simp; rfl)

theorem lb (rd rs1 : RegIdx) (imm : Word) : Statement (.lb rd rs1 imm) :=
  (and_mask_funct3 (encI imm rs1 0 rd 0x03)).trans (by simp; rfl)

theorem lh (rd rs1 : RegIdx) (imm : Word) : Statement (.lh rd rs1 imm) :=
  (and_mask_funct3 (encI imm rs1 1 rd 0x03)).trans (by simp; rfl)

theorem lw (rd rs1 : RegIdx) (imm : Word) : Statement (.lw rd rs1 imm) :=
  (and_mask_funct3 (encI imm rs1 2 rd 0x03)).trans (by simp; rfl)

theorem lbu (rd rs1 : RegIdx) (imm : Word) : Statement (.lbu rd rs1 imm) :=
  (and_mask_funct3 (encI imm rs1 4 rd 0x03)).trans (by simp; rfl)

theorem lhu (rd rs1 : RegIdx) (imm : Word) : Statement (.lhu rd rs1 imm) :=
  (and_mask_funct3 (encI imm rs1 5 rd 0x03)).trans (by simp; rfl)

theorem sb (rs1 rs2 : RegIdx) (imm : Word) : Statement (.sb rs1 rs2 imm) :=
  (and_mask_funct3 (encS imm rs2 rs1 0 0x23)).trans (by simp; rfl)

theorem sh (rs1 rs2 : RegIdx) (imm : Word) : Statement (.sh rs1 rs2 imm) :=
  (and_mask_funct3 (encS imm rs2 rs1 1 0x23)).trans (by simp; rfl)

theorem sw (rs1 rs2 : RegIdx) (imm : Word) : Statement (.sw rs1 rs2 imm) :=
  (and_mask_funct3 (encS imm rs2 rs1 2 0x23)).trans (by simp; rfl)

theorem beq (rs1 rs2 : RegIdx) (imm : Word) : Statement (.beq rs1 rs2 imm) :=
  (and_mask_funct3 (encB imm rs2 rs1 0 0x63)).trans (by simp; rfl)

theorem bne (rs1 rs2 : RegIdx) (imm : Word) : Statement (.bne rs1 rs2 imm) :=
  (and_mask_funct3 (encB imm rs2 rs1 1 0x63)).trans (by simp; rfl)

theorem blt (rs1 rs2 : RegIdx) (imm : Word) : Statement (.blt rs1 rs2 imm) :=
  (and_mask_funct3 (encB imm rs2 rs1 4 0x63)).trans (by simp; rfl)

theorem bge (rs1 rs2 : RegIdx) (imm : Word) : Statement (.bge rs1 rs2 imm) :=
  (and_mask_funct3 (encB imm rs2 rs1 5 0x63)).trans (by simp; rfl)

theorem bltu (rs1 rs2 : RegIdx) (imm : Word) : Statement (.bltu rs1 rs2 imm) :=
  (and_mask_funct3 (encB imm rs2 rs1 6 0x63)).trans (by simp; rfl)

theorem bgeu (rs1 rs2 : RegIdx) (imm : Word) : Statement (.bgeu rs1 rs2 imm) :=
  (and_mask_funct3 (encB imm rs2 rs1 7 0x63)).trans (by simp; rfl)

theorem lui (rd : RegIdx) (imm : Word) : Statement (.lui rd imm) :=
  (and_mask_opcode (encU imm rd 0x37)).trans (by simp; rfl)

theorem auipc (rd : RegIdx) (imm : Word) : Statement (.auipc rd imm) :=
  (and_mask_opcode (encU imm rd 0x17)).trans (by simp; rfl)

theorem jal (rd : RegIdx) (imm : Word) : Statement (.jal rd imm) :=
  (and_mask_opcode (encJ imm rd 0x6F)).trans (by simp; rfl)

theorem jalr (rd rs1 : RegIdx) (imm : Word) : Statement (.jalr rd rs1 imm) :=
  (and_mask_funct3 (encI imm rs1 0 rd 0x67)).trans (by simp; rfl)

theorem ecall : Statement .ecall := rfl

end Sys2Proof.Laws.EncodeRow
end

