-- ==== Sys2Proof/Laws/Step.lean ====
section
/-! SUPPORT. What an instruction and a step can do, said once (spec/10_state.md R36, spec/60_exceptions.md R237), and the
word placed for the next fetch. -/

namespace Sys2Proof.Machine

/-! ### An instruction -/

/-- Everything an instruction can do: write a register, store, branch, jump, raise MemoryFault, or be an environment
call. A store and a MemoryFault are for the instruction's own access. -/
theorem exec_cases {i : Instr} {s t : State} (h : exec i s = .next t) :
    (∃ rd v, t = (s.setReg rd v).advance.retire) ∨
    (∃ x n v, dataAccess i s = some (.store, x, n) ∧ s.memAdmit .store x n = true ∧
      t = ((s.setMem (s.mem.putBytes x (leBytes v n.bytes))).advance).retire) ∨
    (∃ c imm, t = (s.setPc (if c then s.pc + imm else s.pc + 4#32)).retireTransfer c) ∨
    (∃ rd x, t = ((s.setReg rd (s.pc + 4#32)).setPc x).retireTransfer true) ∨
    (∃ kind x n, kind ≠ .fetch ∧ dataAccess i s = some (kind, x, n) ∧ s.memAdmit kind x n = false ∧
      t = s.haltWith (.memoryFault kind x n s.pc (some s.obs.stepW) s.instret)) ∨
    (i = .ecall ∧ execEcall s = .next t) := by
  cases i
  case ecall => exact .inr (.inr (.inr (.inr (.inr ⟨rfl, h⟩))))
  case lb | lh | lw | lbu | lhu =>
    rcases loadAt_cases h with ⟨ha, ht⟩ | ⟨v, -, ht⟩
    · exact .inr (.inr (.inr (.inr (.inl ⟨.load, _, _, by decide, rfl, ha, ht⟩))))
    · exact .inl ⟨_, _, ht⟩
  case sb | sh | sw =>
    rcases storeAt_cases h with ⟨ha, ht⟩ | ⟨ha, ht⟩
    · exact .inr (.inr (.inr (.inr (.inl ⟨.store, _, _, by decide, rfl, ha, ht⟩))))
    · exact .inr (.inl ⟨_, _, _, rfl, ha, ht⟩)
  case beq | bne | blt | bge | bltu | bgeu => exact .inr (.inr (.inl ⟨_, _, (Host.Outcome.next.inj h).symm⟩))
  case jal | jalr => exact .inr (.inr (.inr (.inl ⟨_, _, (Host.Outcome.next.inj h).symm⟩)))
  all_goals exact .inl ⟨_, _, (Host.Outcome.next.inj h).symm⟩

/-- Every instruction answers a next state, in every state. -/
theorem exec_total (i : Instr) (s : State) : ∃ t, exec i s = .next t := by
  cases i
  case ecall =>
    simp only [exec, execEcall, ecallService, ecallRead]
    repeat (first | exact ⟨_, rfl⟩ | split)
  case lb | lh | lw | lbu | lhu =>
    simp only [exec, execLb, execLh, execLw, execLbu, execLhu, loadAt]
    split <;> exact ⟨_, rfl⟩
  case sb | sh | sw =>
    simp only [exec, execSb, execSh, execSw, storeAt]
    split <;> exact ⟨_, rfl⟩
  all_goals exact ⟨_, rfl⟩

/-! ### A step -/

section Step

variable {s t : State}

theorem step_of_halted (h : s.run = .halted) : step s = .fault .halted := by simp [step, h]

theorem step_of_budget (h : s.run = .running) (hb : s.budgetReached = true) : step s = haltBudget s := by
  simp [step, h, hb]

theorem step_of_refused_fetch (h : s.run = .running) (hb : s.budgetReached = false) (hf : s.fetch = none) :
    step s = raiseFetchFault s := by simp [step, h, hb, hf]

theorem step_of_illegal {w : Word} {e : Illegal} (h : s.run = .running) (hb : s.budgetReached = false)
    (hf : s.fetch = some w) (hd : decode w = .error e) : step s = raiseIllegal (s.drive w) := by
  simp [step, h, hb, hf, runWord, hd]

theorem step_of_word {w : Word} {i : Instr} (h : s.run = .running) (hb : s.budgetReached = false)
    (hf : s.fetch = some w) (hd : decode w = .ok i) : step s = exec i (s.drive w) := by
  simp [step, h, hb, hf, runWord, hd]

/-- Everything a step can do, in the order of R237. -/
theorem step_cases (h : step s = .next t) : s.run = .running ∧
    ((s.budgetReached = true ∧ t = s.haltWith (.budgetExhausted s.pc s.instret)) ∨
      s.budgetReached = false ∧
        ((s.fetch = none ∧ t = s.haltWith (.memoryFault .fetch s.pc .four s.pc none s.instret)) ∨
          (∃ w e, s.fetch = some w ∧ decode w = .error e ∧
            t = (s.drive w).haltWith (.illegalInstruction s.pc w s.instret)) ∨
          ∃ w i, s.fetch = some w ∧ decode w = .ok i ∧ exec i (s.drive w) = .next t)) := by
  cases hr : s.run with
  | halted => rw [step_of_halted hr] at h; cases h
  | running =>
    refine ⟨rfl, ?_⟩
    cases hb : s.budgetReached with
    | true => rw [step_of_budget hr hb] at h; exact .inl ⟨rfl, (Host.Outcome.next.inj h).symm⟩
    | false =>
      refine .inr ⟨rfl, ?_⟩
      cases hf : s.fetch with
      | none => rw [step_of_refused_fetch hr hb hf] at h; exact .inl ⟨rfl, (Host.Outcome.next.inj h).symm⟩
      | some w =>
        cases hd : decode w with
        | error e =>
          rw [step_of_illegal hr hb hf hd] at h
          exact .inr (.inl ⟨w, e, rfl, hd, (Host.Outcome.next.inj h).symm⟩)
        | ok i => rw [step_of_word hr hb hf hd] at h; exact .inr (.inr ⟨w, i, rfl, hd, h⟩)

end Step

/-! ### A word placed for the next fetch -/

section Place

variable (s : State) (w : Word)

theorem placeWord_budget : (s.placeWord w).budgetReached = false := by
  by_cases h : s.params.budget = some s.instret <;> simp [State.placeWord, State.budgetReached, h]

theorem placeWord_policy : (s.placeWord w).params.policy.admits .fetch s.pc .four = true := by
  simp only [State.placeWord, State.fetchPolicy]
  split
  · assumption
  · rfl

/-- The placed word is what `step` fetches. -/
theorem placeWord_fetch : (s.placeWord w).fetch = some w := by
  have hm : ∀ k, k < 4 → (s.placeWord w).mem.byteAt (s.pc + BitVec.ofNat 32 k).toNat = some (byteOf w k) := by
    intro k hk
    have := Memory.byteAt_putBytes s.mem s.pc (leBytes w 4) (by simp) k (by simpa using hk)
    rwa [leBytes_getElem] at this
  have h0 := hm 0 (by decide)
  rw [BitVec.add_zero] at h0
  have := memRead_four .fetch (placeWord_policy s w) h0 (hm 1 (by decide)) (hm 2 (by decide)) (hm 3 (by decide))
  rwa [wordOfBytes_byteOf] at this

theorem withFetchWord_toNat : s.withFetchWord 32 w.toNat = s.placeWord w := by
  rw [State.withFetchWord, Nat.mod_eq_of_lt w.isLt, BitVec.ofNat_toNat, BitVec.setWidth_eq]

end Place

end Sys2Proof.Machine
end

