-- ==== Sys2Proof/Tests/Slice0.lean ====
section
/-! SUPPORT. Tests. Words are written from the encodings of the instruction rules, expected values come from
spec/95_test_vectors.md (S1 to S8, sections 2 to 5) or are worked by hand from the rule named. -/

namespace Sys2Proof.Tests

open Sys2Proof.Machine Sys2Proof.Claims

/-! ### Well-formedness: each check refuses an ill-formed term and accepts the ends of its range (R83 to R87) -/

theorem test_wf_imm12_I : Instr.wf (.addi 1 2 2048) = false ∧ Instr.wf (.lw 1 2 (-2049)) = false ∧
    Instr.wf (.jalr 1 2 0xFFFFF7FF) = false ∧ Instr.wf (.addi 1 2 2047) = true ∧ Instr.wf (.addi 1 2 (-2048)) = true := by
  decide
theorem test_wf_imm12_S : Instr.wf (.sb 1 2 2048) = false ∧ Instr.wf (.sw 1 2 (-2049)) = false ∧
    Instr.wf (.sh 1 2 (-2048)) = true := by decide
theorem test_wf_imm13_range : Instr.wf (.beq 1 2 4096) = false ∧ Instr.wf (.bgeu 1 2 (-4098)) = false ∧
    Instr.wf (.bne 1 2 4094) = true ∧ Instr.wf (.blt 1 2 (-4096)) = true := by decide
theorem test_wf_imm13_odd : Instr.wf (.beq 1 2 3) = false ∧ Instr.wf (.bltu 1 2 (-1)) = false := by decide
theorem test_wf_imm20 : Instr.wf (.lui 1 0x100000) = false ∧ Instr.wf (.auipc 1 (-1)) = false ∧
    Instr.wf (.lui 1 0xFFFFF) = true := by decide
theorem test_wf_imm21_range : Instr.wf (.jal 1 1048576) = false ∧ Instr.wf (.jal 1 (-1048578)) = false ∧
    Instr.wf (.jal 1 1048574) = true ∧ Instr.wf (.jal 1 (-1048576)) = true := by decide
theorem test_wf_imm21_odd : Instr.wf (.jal 1 1) = false := by decide

/-! ### Decoding: a word of every constructor, written out from its encoding -/

theorem test_decode_alu :
    decode 0b0000000_00010_00001_000_00011_0110011 = .ok (.add 3 1 2) ∧
    decode 0b0100000_00010_00001_000_00011_0110011 = .ok (.sub 3 1 2) ∧
    decode 0b0000000_00010_00001_001_00011_0110011 = .ok (.sll 3 1 2) ∧
    decode 0b0000000_00010_00001_010_00011_0110011 = .ok (.slt 3 1 2) ∧
    decode 0b0000000_00010_00001_011_00011_0110011 = .ok (.sltu 3 1 2) ∧
    decode 0b0000000_00010_00001_100_00011_0110011 = .ok (.xor 3 1 2) ∧
    decode 0b0000000_00010_00001_101_00011_0110011 = .ok (.srl 3 1 2) ∧
    decode 0b0100000_00010_00001_101_00011_0110011 = .ok (.sra 3 1 2) ∧
    decode 0b0000000_00010_00001_110_00011_0110011 = .ok (.or 3 1 2) ∧
    decode 0b0000000_00010_00001_111_00011_0110011 = .ok (.and 3 1 2) := by decide
theorem test_decode_muldiv :
    decode 0b0000001_00010_00001_000_00011_0110011 = .ok (.mul 3 1 2) ∧
    decode 0b0000001_00010_00001_001_00011_0110011 = .ok (.mulh 3 1 2) ∧
    decode 0b0000001_00010_00001_010_00011_0110011 = .ok (.mulhsu 3 1 2) ∧
    decode 0b0000001_00010_00001_011_00011_0110011 = .ok (.mulhu 3 1 2) ∧
    decode 0b0000001_00010_00001_100_00011_0110011 = .ok (.div 3 1 2) ∧
    decode 0b0000001_00010_00001_101_00011_0110011 = .ok (.divu 3 1 2) ∧
    decode 0b0000001_00010_00001_110_00011_0110011 = .ok (.rem 3 1 2) ∧
    decode 0b0000001_00010_00001_111_00011_0110011 = .ok (.remu 3 1 2) := by decide
theorem test_decode_alu_imm :
    decode 0b111111111111_00001_000_00011_0010011 = .ok (.addi 3 1 0xFFFFFFFF) ∧
    decode 0b0000000_00100_00001_001_00011_0010011 = .ok (.slli 3 1 4) ∧
    decode 0b011111111111_00001_010_00011_0010011 = .ok (.slti 3 1 2047) ∧
    decode 0b100000000000_00001_011_00011_0010011 = .ok (.sltiu 3 1 0xFFFFF800) ∧
    decode 0b010101010101_00001_100_00011_0010011 = .ok (.xori 3 1 0x555) ∧
    decode 0b0000000_11111_00001_101_00011_0010011 = .ok (.srli 3 1 31) ∧
    decode 0b0100000_11111_00001_101_00011_0010011 = .ok (.srai 3 1 31) ∧
    decode 0b000011110000_00001_110_00011_0010011 = .ok (.ori 3 1 240) ∧
    decode 0b000011111111_00001_111_00011_0010011 = .ok (.andi 3 1 255) := by decide
theorem test_decode_load :
    decode 0b000000001000_00001_000_00011_0000011 = .ok (.lb 3 1 8) ∧
    decode 0b000000001000_00001_001_00011_0000011 = .ok (.lh 3 1 8) ∧
    decode 0b111111111100_00001_010_00011_0000011 = .ok (.lw 3 1 0xFFFFFFFC) ∧
    decode 0b000000001000_00001_100_00011_0000011 = .ok (.lbu 3 1 8) ∧
    decode 0b000000001000_00001_101_00011_0000011 = .ok (.lhu 3 1 8) := by decide
theorem test_decode_store :
    decode 0b0111111_00000_00000_000_11111_0100011 = .ok (.sb 0 0 2047) ∧
    decode 0b0000000_00010_00001_001_01000_0100011 = .ok (.sh 1 2 8) ∧
    decode 0b1111111_00010_00001_010_11100_0100011 = .ok (.sw 1 2 0xFFFFFFFC) := by decide
theorem test_decode_branch :
    decode 0b0_000000_00010_00001_000_1000_0_1100011 = .ok (.beq 1 2 16) ∧
    decode 0b1_111111_00010_00001_001_1100_1_1100011 = .ok (.bne 1 2 0xFFFFFFF8) ∧
    decode 0b0_111111_00010_00001_100_1111_1_1100011 = .ok (.blt 1 2 4094) ∧
    decode 0b1_000000_00010_00001_101_0000_0_1100011 = .ok (.bge 1 2 0xFFFFF000) ∧
    decode 0b0_000000_00010_00001_110_0000_1_1100011 = .ok (.bltu 1 2 2048) ∧
    decode 0b0_000000_00010_00001_111_0001_0_1100011 = .ok (.bgeu 1 2 2) := by decide
theorem test_decode_upper :
    decode 0b00000000000000000001_00011_0110111 = .ok (.lui 3 1) ∧
    decode 0b10000000000000000000_00011_0010111 = .ok (.auipc 3 0x80000) := by decide
theorem test_decode_jump :
    decode 0b0_0000000110_0_00000000_00001_1101111 = .ok (.jal 1 12) ∧
    decode 0b0_0000000000_1_00000000_00001_1101111 = .ok (.jal 1 2048) ∧
    decode 0b1_0000000000_0_00000000_00001_1101111 = .ok (.jal 1 0xFFF00000) ∧
    decode 0b0_0000000000_0_11111111_00001_1101111 = .ok (.jal 1 0xFF000) ∧
    decode 0b111111111111_00110_000_00101_1100111 = .ok (.jalr 5 6 0xFFFFFFFF) := by decide
theorem test_decode_ecall : decode 0b000000000000_00000_000_00000_1110011 = .ok .ecall := by decide

/-- Sections 2 and 3: the immediate extremes of the B and J formats. -/
theorem test_format_extremes : immB 0xDEADBEEF = 0xFFFFFDFC ∧ immJ 0xDEADBEEF = 0xFFFDB5EA ∧ immB 0x12345678 = 0x12C ∧
    immJ 0x12345678 = 0x45922 ∧ immS 0x80000023 = 0xFFFFF800 ∧ immU 0xFFFFF1B7 = 0xFFFFF ∧ immI 0x4040D193 = 0x404 := by
  decide

/-- Section 3: words of the Illegal set, each refused by name. -/
theorem test_illegal_words :
    decode 0x00000000 = .error (.opcode 0x00) ∧ decode 0xFFFFFFFF = .error (.opcode 0x7F) ∧
    decode 0x0000000F = .error (.opcode 0x0F) ∧ decode 0x402091B3 = .error (.funct7 0x20 1) ∧
    decode 0x042081B3 = .error (.funct7 0x02 0) ∧ decode 0x422081B3 = .error (.funct7 0x21 0) ∧
    decode 0x0080B183 = .error (.funct3 0x03 3) ∧ decode 0x0020B423 = .error (.funct3 0x23 3) ∧
    decode 0x0020A863 = .error (.funct3 0x63 2) ∧ decode 0x00009067 = .error (.funct3 0x67 1) ∧
    decode 0x00001073 = .error (.funct3 0x73 1) ∧ decodeBytes [0x73, 0x00, 0x00] = .error .truncated := by decide

/-- Section 3: words that differ from the assembler's only in ignored bits (R101, R103). -/
theorem test_ignored_bits :
    decode 0xFE409193 = .ok (.slli 3 1 4) ∧ decode 0x8040D193 = .ok (.srli 3 1 4) ∧ decode 0xC040D193 = .ok (.srai 3 1 4) ∧
    decode 0x0240D193 = .ok (.srli 3 1 4) ∧ decode 0x00100073 = .ok .ecall ∧ decode 0xFFFF8FF3 = .ok .ecall := by decide

/-- The byte at the lowest address holds bits 7:0 (R55, P1). -/
theorem test_decode_bytes : decodeBytes [0x93, 0x00, 0x50, 0x00, 0x13] = .ok (.addi 1 0 5, [0x13]) ∧
    decodeTableWord 32 0x00500093 = some (.addi 1 0 5) ∧ decodeTableWord 32 0x0000000F = none := by decide

theorem test_encode_words : encode (.sw 1 2 0xFFFFFFFC) = 0xFE20AE23 ∧ encode (.bne 1 2 0xFFFFFFF8) = 0xFE209CE3 ∧
    encode (.jal 1 0xFFFFFFFC) = 0xFFDFF0EF ∧ encode (.srai 3 1 4) = 0x4040D193 ∧ encode (.lui 3 0xFFFFF) = 0xFFFFF1B7 ∧
    encode (.jalr 1 2 4) = 0x004100E7 := by decide

/-! ### One step -/

/-- `x[1]`, `x[2]`, `pc` and the word there; nothing else is mapped. -/
def start (pc w r1 r2 : Word) : State := (((State.reset.setReg 1 r1).setReg 2 r2).setPc pc).placeWord w

/-- What a reader finds in the state after one step. -/
def after {α : Type} (s : State) (f : State → α) : Option α :=
  match step s with
  | .next t => some (f t)
  | _ => none

/-- `x[3]` and `pc` after one step at 0x100. -/
def result (w r1 r2 : Word) : Option (Word × Word) := after (start 0x100 w r1 r2) fun t => (t.reg 3, t.pc)

theorem test_add_wraps : result 0x002081B3 0xFFFFFFFF 1 = some (0, 0x104) := by decide
theorem test_add_doubles_in_place : after (start 0x100 0x001080B3 7 0) (fun t => t.reg 1) = some 14 := by decide
theorem test_sub_borrows : result 0x402081B3 5 7 = some (0xFFFFFFFE, 0x104) := by decide
theorem test_sll_amount_33 : result 0x002091B3 0x80000001 33 = some (2, 0x104) := by decide
theorem test_slt_signed : result 0x0020A1B3 0x80000000 0x7FFFFFFF = some (1, 0x104) := by decide
theorem test_sltu_unsigned : result 0x0020B1B3 0x80000000 0x7FFFFFFF = some (0, 0x104) := by decide
theorem test_xor : result 0x0020C1B3 0xFF00FF00 0x0FF00FF0 = some (0xF0F0F0F0, 0x104) := by decide
theorem test_srl_fills_zero : result 0x0020D1B3 0x80000001 33 = some (0x40000000, 0x104) := by decide
theorem test_sra_fills_sign : result 0x4020D1B3 0x80000001 1 = some (0xC0000000, 0x104) := by decide
theorem test_or : result 0x0020E1B3 0xFF00FF00 0x0FF00FF0 = some (0xFFF0FFF0, 0x104) := by decide
theorem test_and : result 0x0020F1B3 0xFF00FF00 0x0FF00FF0 = some (0x0F000F00, 0x104) := by decide
theorem test_mul : result 0x022081B3 0x12345678 0x9ABCDEF0 = some (0x242D2080, 0x104) := by decide
theorem test_mulh : result 0x022091B3 0x12345678 0x9ABCDEF0 = some (0xF8CC93D6, 0x104) := by decide
theorem test_mulhsu_2_max : result 0x0220A1B3 2 0xFFFFFFFF = some (1, 0x104) := by decide
theorem test_mulhsu_neg : result 0x0220A1B3 0x80000000 0xFFFFFFFF = some (0x80000000, 0x104) := by decide
theorem test_mulhu : result 0x0220B1B3 0xFFFFFFFF 0xFFFFFFFF = some (0xFFFFFFFE, 0x104) := by decide
theorem test_div_truncates : result 0x0220C1B3 0xFFFFFFF9 2 = some (0xFFFFFFFD, 0x104) := by decide
theorem test_div_by_zero : result 0x0220C1B3 0x80000000 0 = some (0xFFFFFFFF, 0x104) := by decide
theorem test_divu : result 0x0220D1B3 0xFFFFFFF9 2 = some (0x7FFFFFFC, 0x104) := by decide
theorem test_rem_sign : result 0x0220E1B3 0xFFFFFFF9 2 = some (0xFFFFFFFF, 0x104) := by decide
theorem test_rem_overflow : result 0x0220E1B3 0x80000000 0xFFFFFFFF = some (0, 0x104) := by decide
theorem test_remu_by_zero : result 0x0220F1B3 0xDEADBEEF 0 = some (0xDEADBEEF, 0x104) := by decide
theorem test_addi_negative : result 0xFFF08193 0 0 = some (0xFFFFFFFF, 0x104) := by decide
theorem test_addi_x0 : after (start 0x100 0x00500013 0 0) (fun t => (t.reg 0, t.pc)) = some (0, 0x104) := by decide
theorem test_slli : result 0x00409193 0xF0F0F0F0 0 = some (0x0F0F0F00, 0x104) := by decide
theorem test_slti : result 0xFFF0A193 0xFFFFFFFE 0 = some (1, 0x104) := by decide
theorem test_sltiu_sign_extends : result 0x8000B193 0xFFFFF7FF 0 = some (1, 0x104) := by decide
theorem test_xori : result 0xFFF0C193 0x12345678 0 = some (0xEDCBA987, 0x104) := by decide
theorem test_srli : result 0x8040D193 0xF0F0F0F0 0 = some (0x0F0F0F0F, 0x104) := by decide
theorem test_srai : result 0x4040D193 0xF0F0F0F0 0 = some (0xFF0F0F0F, 0x104) := by decide
theorem test_ori : result 0x8000E193 0x000000FF 0 = some (0xFFFFF8FF, 0x104) := by decide
theorem test_andi : result 0xFF00F193 0x12345678 0 = some (0x12345670, 0x104) := by decide
theorem test_lui : result 0x000011B7 0 0 = some (0x1000, 0x104) := by decide
theorem test_auipc_wraps : result 0xFFFFF197 0 0 = some (0xFFFFF100, 0x104) := by decide

/-- The memory of section 4.5: eight bytes at 0x1000. -/
def bytes8 : Memory :=
  [(0x1000, 0x78), (0x1001, 0x56), (0x1002, 0x34), (0x1003, 0x92), (0x1004, 0x80), (0x1005, 0xFF), (0x1006, 0x7F), (0x1007, 0x01)]

/-- `x[1]` = 0xFF8, `x[2]` = 0xA1B2C3D4, those bytes, and the word at 0x100. -/
def startMem (w : Word) : State :=
  (((State.reset.setMem bytes8).setReg 1 0xFF8 |>.setReg 2 0xA1B2C3D4).setPc 0x100).placeWord w

theorem test_lb : after (startMem 0x00B08183) (fun t => t.reg 3) = some 0xFFFFFF92 := by decide
theorem test_lbu : after (startMem 0x00B0C183) (fun t => t.reg 3) = some 0x92 := by decide
theorem test_lh : after (startMem 0x00A09183) (fun t => t.reg 3) = some 0xFFFF9234 := by decide
theorem test_lhu : after (startMem 0x00C0D183) (fun t => t.reg 3) = some 0xFF80 := by decide
theorem test_lw_misaligned : after (startMem 0x0090A183) (fun t => t.reg 3) = some 0x80923456 := by decide
theorem test_lw_refused : after (startMem 0x00D0A183) (fun t => (t.reg 3, t.pc, t.halt)) =
    some (0, 0x100, some (.memoryFault .load 0x1005 .four 0x100 (some 0x00D0A183) 0)) := by decide

/-- The bytes at 0x1000 to 0x1007 after one step. -/
def stored (w : Word) : Option (List (Option Byte)) :=
  after (startMem w) fun t => (List.range 8).map fun k => t.mem.byteAt (0x1000 + k)

theorem test_sb : stored 0x002087A3 = some [some 0x78, some 0x56, some 0x34, some 0x92, some 0x80, some 0xFF, some 0x7F, some 0xD4] := by
  decide
theorem test_sh : stored 0x002095A3 = some [some 0x78, some 0x56, some 0x34, some 0xD4, some 0xC3, some 0xFF, some 0x7F, some 0x01] := by
  decide
theorem test_sw : stored 0x0020A4A3 = some [some 0x78, some 0xD4, some 0xC3, some 0xB2, some 0xA1, some 0xFF, some 0x7F, some 0x01] := by
  decide
theorem test_sw_refused_writes_nothing :
    stored 0x0020A6A3 = some [some 0x78, some 0x56, some 0x34, some 0x92, some 0x80, some 0xFF, some 0x7F, some 0x01] := by
  decide

/-- `pc` and `taken` after one step at 0x100. -/
def branched (w r1 r2 : Word) : Option (Word × Option Bool) := after (start 0x100 w r1 r2) fun t => (t.pc, t.obs.taken)

theorem test_beq_taken : branched 0x00208863 5 5 = some (0x110, some true) := by decide
theorem test_beq_wraps : branched 0x80208063 0 0 = some (0xFFFFF100, some true) := by decide
theorem test_bne_back : branched 0xFE209CE3 1 0 = some (0xF8, some true) := by decide
theorem test_blt : branched 0x0020C863 0xFFFFFFFF 0 = some (0x110, some true) := by decide
theorem test_bge_not_taken : branched 0x0020D863 0xFFFFFFFF 0 = some (0x104, some false) := by decide
theorem test_bltu_not_taken : branched 0x0020E863 0xFFFFFFFF 0 = some (0x104, some false) := by decide
theorem test_bgeu_equal : branched 0x0020F863 5 5 = some (0x110, some true) := by decide
theorem test_branch_to_next_is_taken : branched 0x00208263 0 0 = some (0x104, some true) := by decide
theorem test_jal_link_wraps : after (start 0xFFFFFFFC 0x008000EF 0 0) (fun t => (t.pc, t.reg 1)) = some (4, 0) := by decide
theorem test_jal_x0_loops : branched 0x0000006F 0 0 = some (0x100, some true) := by decide
theorem test_jalr_clears_bit0 : after (start 0x100 0x004100E7 0 0x2001) (fun t => (t.pc, t.reg 1)) = some (0x2004, 0x104) := by
  decide
theorem test_jalr_reads_old_rs1 : after (start 0x100 0x000080E7 0x2000 0) (fun t => (t.pc, t.reg 1)) = some (0x2000, 0x104) := by
  decide

/-- An ecall at 0x100 with `x[17]`, `x[10]`, and the input. -/
def startCall (n v : Word) (input : List Byte) (ended : Bool) : State :=
  State.placeWord { (State.reset.setReg 17 n |>.setReg 10 v).setPc 0x100 with input := input, inputEnded := ended } 0x73

/-- `x[10]`, `pc`, output, input left, and `retire`. -/
def called (n v : Word) (input : List Byte) (ended : Bool) : Option (Word × Word × List Byte × List Byte × Bool) :=
  after (startCall n v input ended) fun t => (t.reg 10, t.pc, t.output, t.input, t.obs.retire)

theorem test_ecall_reads : called 1 0x12345678 [0xE9, 0x41] false = some (0xE9, 0x104, [], [0x41], true) := by decide
theorem test_ecall_end_of_input : called 1 0x12345678 [] true = some (0xFFFFFFFF, 0x104, [], [], true) := by decide
theorem test_ecall_holds : called 1 0x12345678 [] false = some (0x12345678, 0x100, [], [], false) := by decide
theorem test_ecall_writes : called 2 0x12345641 [] true = some (0x12345641, 0x104, [0x41], [], true) := by decide
theorem test_ecall_exits : after (startCall 93 7 [] true) (fun t => (t.pc, t.instret, t.halt)) =
    some (0x104, 0, some (.exit 93 0x100)) := by decide
theorem test_ecall_0x101_is_unknown : after (startCall 0x101 7 [] true) (fun t => (t.pc, t.halt)) =
    some (0x100, some (.unrecognizedSyscall 0x101 0x100 0x73 0)) := by decide

/-! ### Errors, priority, budget (section 5) -/

/-- `instret` = 7 and a budget, at `pc` = 0x100. -/
def startBudget (budget : Option Nat) (s : State) : State :=
  { s.setPc 0x100 with instret := 7, params := { s.params with budget := budget } }

theorem test_illegal_record : after (startBudget (some 8) (start 0x100 0x0000000F 0 0)) (fun t => (t.instret, t.halt)) =
    some (7, some (.illegalInstruction 0x100 0x0000000F 7)) := by decide
theorem test_fetch_fault_half_mapped : after (startBudget none (State.reset.setMem [(0x100, 0x13), (0x101, 0)])) (fun t => t.halt) =
    some (some (.memoryFault .fetch 0x100 .four 0x100 none 7)) := by decide
theorem test_budget_before_fetch : after (startBudget (some 7) State.reset) (fun t => (t.pc, t.halt)) =
    some (0x100, some (.budgetExhausted 0x100 7)) := by decide
theorem test_illegal_before_data_access : after (startBudget none (start 0x100 0x0000B183 0x5000 0)) (fun t => t.halt) =
    some (some (.illegalInstruction 0x100 0x0000B183 7)) := by decide
theorem test_alignment_policy_refuses :
    after { startMem 0x0090A183 with params := { Params.default with policy := { enforceAlignment := true, refused := [] } } }
      (fun t => t.halt) = some (some (.memoryFault .load 0x1001 .four 0x100 (some 0x0090A183) 0)) := by decide
theorem test_execute_only_policy_refuses :
    after { startMem 0x00B0C183 with
        params := { Params.default with policy := { enforceAlignment := false, refused := [⟨.load, .one, 0x1000, 0x1007⟩] } } }
      (fun t => t.halt) = some (some (.memoryFault .load 0x1003 .one 0x100 (some 0x00B0C183) 0)) := by decide
theorem test_halted_takes_no_step : step { State.reset with run := .halted } = .fault .halted := rfl
theorem test_reset_leaves_halted :
    (hostReset 0x40 [] true { startMem 0 with run := .halted, halt := some (.exit 3 0) }).run = .running ∧
    (hostReset 0x40 [] true (startMem 0)).mem = (startMem 0).mem ∧ (hostReset 0x40 [] true (startMem 0)).reg 2 = 0 := by decide
theorem test_cause_codes : (HaltRecord.exit 3 0).cause.code = 0 ∧ (HaltRecord.illegalInstruction 0 0 0).cause.code = 1 ∧
    (HaltRecord.memoryFault .load 0 .one 0 none 0).cause.code = 2 ∧ (HaltRecord.unrecognizedSyscall 5 0 0 0).cause.code = 3 ∧
    (HaltRecord.budgetExhausted 0 0).cause.code = 4 := by decide

/-! ### Witnesses: for every statement with hypotheses, data that meet all of them, at the ends of each clause's range -/

/-- What a witness of a step reads: the step gives a next state. -/
theorem next_of_after {α : Type} {s : State} {f : State → α} {a : α} (h : after s f = some a) :
    ∃ t, step s = .next t ∧ f t = a := by
  unfold after at h
  split at h
  · next t ht => exact ⟨t, ht, Option.some.inj h⟩
  · cases h

/-- A word placed at `pc` is one the state holds. -/
theorem holdsWord_placeWord (s : State) (w : Word) : HoldsWord (s.placeWord w) w := by
  obtain ⟨ha, b0, b1, b2, b3, h0, h1, h2, h3, rfl⟩ := memRead_four_inv .fetch (placeWord_fetch s w)
  exact ⟨b0, b1, b2, b3, h0, h1, h2, h3, ha, rfl⟩

theorem witness_DecodeInvertsEncode : Instr.wf (.addi 1 2 (-2048)) = true ∧ Instr.wf (.sw 1 2 2047) = true ∧
    Instr.wf (.beq 1 2 (-4096)) = true ∧ Instr.wf (.bgeu 1 2 4094) = true ∧ Instr.wf (.lui 1 0xFFFFF) = true ∧
    Instr.wf (.jal 1 1048574) = true ∧ Instr.wf (.srai 31 31 31) = true := by decide

theorem witness_EncodeInvertsDecode : decode 0xFE409193 = .ok (.slli 3 1 4) ∧ decode 0xFFFF8FF3 = .ok .ecall ∧
    decode 0x002081B3 = .ok (.add 3 1 2) := by decide

theorem witness_IgnoredBits : decode 0xFE409193 = .ok (.slli 3 1 4) ∧
    (0xFE409193 : Word) &&& ~~~ignoredBits (.slli 3 1 4) = 0x00409193 &&& ~~~ignoredBits (.slli 3 1 4) ∧
    decode 0xFFFF8FF3 = .ok .ecall ∧ (0xFFFF8FF3 : Word) &&& ~~~ignoredBits .ecall = 0x73 &&& ~~~ignoredBits .ecall ∧
    decode 0xC040D193 = .ok (.srai 3 1 4) ∧
    (0xC040D193 : Word) &&& ~~~ignoredBits (.srai 3 1 4) = 0x4040D193 &&& ~~~ignoredBits (.srai 3 1 4) := by decide

theorem witness_RegisterOpcodeDispatch : (1 : BitVec 3) ≠ 0 ∧ (1 : BitVec 3) ≠ 5 ∧ (7 : BitVec 3) ≠ 0 ∧ (7 : BitVec 3) ≠ 5 ∧
    (0x21 : BitVec 7) ≠ 0x00 ∧ (0x21 : BitVec 7) ≠ 0x20 ∧ (0x21 : BitVec 7) ≠ 0x01 := by decide

theorem witness_OpcodesWithoutInnerDispatch : (0xFFFFF1B7 : Word).toNat % 128 = 0x37 ∧ (0x80000197 : Word).toNat % 128 = 0x17 ∧
    (0xFFDFF0EF : Word).toNat % 128 = 0x6F ∧
    ((0xFFF302E7 : Word).toNat % 128 = 0x67 ∧ (0xFFF302E7 : Word).toNat / 2 ^ 12 % 8 = 0) ∧
    ((0x00009067 : Word).toNat % 128 = 0x67 ∧ (0x00009067 : Word).toNat / 2 ^ 12 % 8 ≠ 0) ∧
    ((0xFFFF8FF3 : Word).toNat % 128 = 0x73 ∧ (0xFFFF8FF3 : Word).toNat / 2 ^ 12 % 8 = 0) ∧
    ((0x00001073 : Word).toNat % 128 = 0x73 ∧ (0x00001073 : Word).toNat / 2 ^ 12 % 8 ≠ 0) := by decide

theorem witness_StepRunsDecodedInstruction : Ready (start 0xFFFFFFFE 0x002081B3 1 2) ∧
    HoldsWord (start 0xFFFFFFFE 0x002081B3 1 2) 0x002081B3 ∧ decode 0x002081B3 = .ok (.add 3 1 2) :=
  ⟨⟨rfl, by decide⟩, holdsWord_placeWord _ _, by decide⟩

theorem witness_StepsExactlyWhileRunning : (start 0 0x73 0 0).run = .running ∧ (start 0 0x73 0 0).halt = none ∧
    (∃ t, step (start 0 0x73 0 0) = .next t ∧ t.run = .halted) ∧
    (∃ t, step (start 0 0x13 0 0) = .next t ∧ t.run = .running) ∧
    (State.reset.haltWith (.exit 3 0)).run = .halted ∧
    (startCall 1 0 [] false).inputEnded = false ∧ State.reset.inputEnded = true :=
  ⟨rfl, rfl, next_of_after (by decide), next_of_after (by decide), rfl, rfl, rfl⟩

theorem witness_HaltedCoreAnswersFault : (State.reset.haltWith (.exit 3 0)).run = .halted := rfl

theorem witness_BudgetIsCheckedFirst : (startBudget (some 7) State.reset).run = .running ∧
    (startBudget (some 7) State.reset).params.budget = some (startBudget (some 7) State.reset).instret := by decide

theorem witness_RefusedFetch : Ready State.reset ∧ State.reset.memAdmit .fetch State.reset.pc .four = false :=
  ⟨⟨rfl, by decide⟩, by decide⟩

theorem witness_IllegalWord : Ready (start 0 0x0000000F 0 0) ∧ HoldsWord (start 0 0x0000000F 0 0) 0x0000000F ∧
    IllegalWord 0x0000000F ∧ IllegalWord 0x422081B3 ∧ IllegalWord 0x402091B3 ∧ IllegalWord 0x0080B183 ∧
    IllegalWord 0x0020F423 ∧ IllegalWord 0x0020B863 ∧ IllegalWord 0x00009067 ∧ IllegalWord 0xC0002573 := by
  refine ⟨⟨rfl, by decide⟩, holdsWord_placeWord _ _, ?_, ?_, ?_, ?_, ?_, ?_, ?_, ?_⟩ <;> unfold IllegalWord <;> decide

theorem witness_PlacedWordRunsNext : decode 0x00000073 = .ok .ecall := by decide

theorem witness_StepKeepsStateOk_halting : (start 0x100 0x0000000F 1 2).Ok ∧
    ∃ t, step (start 0x100 0x0000000F 1 2) = .next t ∧ t.run = .halted :=
  ⟨⟨by decide, by decide, by decide, fun n h => by cases h⟩, next_of_after (by decide)⟩

theorem witness_StepKeepsStateOk_completing : (startBudget (some 8) (start 0x100 0x002081B3 1 2)).Ok ∧
    ∃ t, step (startBudget (some 8) (start 0x100 0x002081B3 1 2)) = .next t ∧ t.instret = 8 :=
  ⟨⟨by decide, by decide, by decide, fun n h => by cases h; decide⟩, next_of_after (by decide)⟩

theorem witness_EvenPcStaysEven : (start 0x100 0x0000006F 0 0).pc.getLsbD 0 = false ∧
    ∃ t, step (start 0x100 0x0000006F 0 0) = .next t ∧ t.pc = 0x100 := ⟨by decide, next_of_after (by decide)⟩

theorem witness_StepKeepsMappedSet : ∃ t, step (startMem 0x0020A4A3) = .next t ∧ t.mem.byteAt 0x1001 = some 0xD4 :=
  next_of_after (by decide)

theorem witness_ErrorsArePrecise : (start 0x100 0x0000A183 0x5000 0).halt = none ∧
    ∃ t, step (start 0x100 0x0000A183 0x5000 0) = .next t ∧
      (t.halt, HaltRecord.isError (.memoryFault .load 0x5000 .four 0x100 (some 0x0000A183) 0)) =
        (some (.memoryFault .load 0x5000 .four 0x100 (some 0x0000A183) 0), true) := ⟨rfl, next_of_after (by decide)⟩

theorem witness_HaltCauses :
    (∃ t, step (startCall 3 7 [] true) = .next t ∧ t.halt = some (.exit 3 0x100)) ∧
    (∃ t, step (start 0x100 0x0000000F 0 0) = .next t ∧ t.halt = some (.illegalInstruction 0x100 0x0000000F 0)) ∧
    (∃ t, step State.reset = .next t ∧ t.halt = some (.memoryFault .fetch 0 .four 0 none 0)) ∧
    (∃ t, step (start 0x100 0x00209023 0x5000 0) = .next t ∧
      t.halt = some (.memoryFault .store 0x5000 .two 0x100 (some 0x00209023) 0)) ∧
    dataAccess (.sh 1 2 0) (start 0x100 0x00209023 0x5000 0) = some (.store, 0x5000, .two) ∧
    (∃ t, step (startCall 0 7 [] true) = .next t ∧ t.halt = some (.unrecognizedSyscall 0 0x100 0x73 0)) ∧
    (∃ t, step (startBudget (some 7) State.reset) = .next t ∧ t.halt = some (.budgetExhausted 0x100 7)) :=
  ⟨next_of_after (by decide), next_of_after (by decide), next_of_after (by decide), next_of_after (by decide),
    by decide, next_of_after (by decide), next_of_after (by decide)⟩

theorem witness_RegisterFileReads : (31 : RegIdx) ≠ 0 ∧ (1 : RegIdx) ≠ 0 ∧ (0 : RegIdx) ≠ 31 := by decide

theorem witness_OnlyTheDestinationIsWritten :
    ∃ t, exec (.addi 3 1 5) State.reset = .next t ∧ t.reg 3 ≠ State.reset.reg 3 := ⟨_, rfl, by decide⟩

theorem witness_OnlyStoresChangeMemory : ∃ t, exec (.addi 3 1 5) State.reset = .next t ∧ isStore (.addi 3 1 5) = false :=
  ⟨_, rfl, rfl⟩

theorem witness_OnlyEcallUsesTheStreams : (∃ t, exec .ecall (startCall 1 0 [0x41] true) = .next t) ∧
    (∃ t, exec .ecall (startCall 2 0x41 [] true) = .next t) ∧ ∃ t, exec (.addi 3 1 5) State.reset = .next t :=
  ⟨⟨_, rfl⟩, ⟨_, rfl⟩, ⟨_, rfl⟩⟩

theorem witness_ReferenceMemory : (startMem 0x13).params.policy = AdmitPolicy.reference ∧
    (startMem 0x13).memAdmit .load 0x1004 .four = true ∧ (startMem 0x13).memAdmit .load 0x1005 .four = false := by decide

/-- `startMem` with another policy. -/
def startPolicy (policy : AdmitPolicy) : State := { startMem 0x13 with params := { Params.default with policy := policy } }

theorem witness_EnforcedAlignment : (startPolicy ⟨true, []⟩).params.policy.enforceAlignment = true ∧
    ¬ Width.bytes .two ∣ (0x1001 : Word).toNat ∧ (startPolicy ⟨true, []⟩).memAdmit .load 0x1001 .two = false ∧
    (startPolicy ⟨false, []⟩).memAdmit .load 0x1001 .two = true ∧ (startPolicy ⟨true, []⟩).memAdmit .load 0x1002 .two = true := by
  decide

theorem witness_RefusedRange :
    (⟨.store, .one, 0x1002, 0x1003⟩ : RefusedRange) ∈ (startPolicy ⟨false, [⟨.store, .one, 0x1002, 0x1003⟩]⟩).params.policy.refused ∧
    (startPolicy ⟨false, [⟨.store, .one, 0x1002, 0x1003⟩]⟩).memAdmit .store 0x1003 .one = false ∧
    (startPolicy ⟨false, [⟨.store, .one, 0x1002, 0x1003⟩]⟩).memAdmit .store 0x1004 .one = true ∧
    (startPolicy ⟨false, [⟨.store, .one, 0x1002, 0x1003⟩]⟩).memAdmit .load 0x1003 .one = true := by decide

theorem witness_ResetStateIsOk : bytes8.wf ∧ (startMem 0x13).mem.wf := by decide

theorem witness_ResetBeginsANewRun : (State.reset.haltWith (.exit 3 0)).run = .halted := rfl

theorem witness_ResetValues : ∃ s, s = State.resetWith 0x100 bytes8 [0x41] false Params.default := ⟨_, rfl⟩

theorem witness_DivisionByZero : (start 0 0 0x80000000 0).reg 2 = 0 := by decide

theorem witness_DivisionOverflow : (start 0 0 0x80000000 0xFFFFFFFF).reg 1 = 0x80000000 ∧
    (start 0 0 0x80000000 0xFFFFFFFF).reg 2 = 0xFFFFFFFF := by decide

theorem witness_SignedDivision : (start 0 0 0x80000000 1).reg 2 ≠ 0 ∧
    ¬ ((start 0 0 0x80000000 1).reg 1 = 0x80000000 ∧ (start 0 0 0x80000000 1).reg 2 = 0xFFFFFFFF) := by decide

theorem witness_UnsignedDivision : (start 0 0 0xFFFFFFFF 1).reg 2 ≠ 0 := by decide

/-- Bytes at both ends of the address space. -/
def wrapped : State := State.reset.setMem [(0, 0x22), (1, 0x33), (2, 0x44), (0xFFFFFFFF, 0x91)]

theorem witness_Loads_wrap : (0xFFFFFFFF : Word) = wrapped.reg 0 + (0xFFF : BitVec 12).signExtend 32 ∧
    wrapped.params.policy.admits .load 0xFFFFFFFF .one = true ∧ wrapped.params.policy.admits .load 0xFFFFFFFF .two = true ∧
    wrapped.params.policy.admits .load 0xFFFFFFFF .four = true ∧
    wrapped.mem.byteAt (0xFFFFFFFF : Word).toNat = some 0x91 ∧ wrapped.mem.byteAt (0xFFFFFFFF + 1 : Word).toNat = some 0x22 ∧
    wrapped.mem.byteAt (0xFFFFFFFF + 2 : Word).toNat = some 0x33 ∧
    wrapped.mem.byteAt (0xFFFFFFFF + 3 : Word).toNat = some 0x44 := by decide

theorem witness_Stores_wrap : (0xFFFFFFFF : Word) = ((0x7F : BitVec 7) ++ (0x1F : BitVec 5) : BitVec 12).signExtend 32 ∧
    (0xFFFFFFFF : Word) = wrapped.reg 0 + 0xFFFFFFFF ∧ wrapped.memAdmit .store 0xFFFFFFFF .one = true ∧
    wrapped.memAdmit .store 0xFFFFFFFF .two = true ∧ wrapped.memAdmit .store 0xFFFFFFFF .four = true := by decide

theorem witness_RefusedDataAccesses : (0x1008 : Word) = (startMem 0x13).reg 1 + 16 ∧
    (startMem 0x13).memAdmit .load 0x1008 .one = false ∧ (startMem 0x13).memAdmit .load 0x1007 .two = false ∧
    (startMem 0x13).memAdmit .load 0x1005 .four = false ∧ (startMem 0x13).memAdmit .store 0x1008 .one = false ∧
    (startMem 0x13).memAdmit .store 0x1007 .two = false ∧ (startMem 0x13).memAdmit .store 0x1005 .four = false := by decide

theorem witness_StoredWordIsSeenByLoads : (0x1000 : Word) = (startMem 0x13).reg 1 + 8 ∧
    (startMem 0x13).memAdmit .store 0x1000 .four = true ∧
    ∃ t, exec (.sw 1 2 8) (startMem 0x13) = .next t ∧ t.reg 1 + 8 = 0x1000 ∧
      t.params.policy.admits .load 0x1000 .four = true ∧ t.reg 1 + 11 = 0x1000 + BitVec.ofNat 32 3 ∧
      t.params.policy.admits .load (0x1000 + BitVec.ofNat 32 3) .one = true :=
  ⟨by decide, by decide, _, rfl, by decide, by decide, by decide, by decide⟩

theorem witness_StoredWordIsSeenByFetch : (4 : Word) = (wrapped.setMem (bytes8.putBytes 4 [0, 0, 0, 0])).reg 0 + 4 ∧
    (wrapped.setMem (bytes8.putBytes 4 [0, 0, 0, 0])).memAdmit .store 4 .four = true ∧
    ∃ t, exec (.sw 0 2 4) (wrapped.setMem (bytes8.putBytes 4 [0, 0, 0, 0])) = .next t ∧
      (4 : Word) = (wrapped.setMem (bytes8.putBytes 4 [0, 0, 0, 0])).pc + 4 ∧
      t.params.policy.admits .fetch 4 .four = true :=
  ⟨by decide, by decide, _, rfl, by decide, by decide⟩

theorem witness_BranchOffset : (0xFFFFF000 : Word) =
    ((1 : BitVec 1) ++ (0 : BitVec 1) ++ (0 : BitVec 6) ++ (0 : BitVec 4) ++ 0#1 : BitVec 13).signExtend 32 := by decide

theorem witness_JumpOffset : (0xFFFFE : Word) =
    ((0 : BitVec 1) ++ (0xFF : BitVec 8) ++ (1 : BitVec 1) ++ (0x3FF : BitVec 10) ++ 0#1 : BitVec 21).signExtend 32 := by decide

theorem witness_EcallReadsCharacter : (startCall 1 0 [0xE9] false).reg 17 = 1 ∧ (startCall 1 0 [0xE9] false).input = 0xE9 :: [] ∧
    (startCall 1 0 [] true).reg 17 = 1 ∧ (startCall 1 0 [] true).input = [] ∧ (startCall 1 0 [] true).inputEnded = true := by
  decide

theorem witness_EcallReadHolds : (startCall 1 0 [] false).reg 17 = 1 ∧ (startCall 1 0 [] false).input = [] ∧
    (startCall 1 0 [] false).inputEnded = false := by decide

theorem witness_EcallWrites : (startCall 2 0 [] true).reg 17 = 2 := by decide

theorem witness_EcallExits : (startCall 3 0 [] true).reg 17 = 3 ∧ (startCall 93 0 [] true).reg 17 = 93 := by decide

theorem witness_EcallUnknown : (startCall 0x101 0 [] true).reg 17 ≠ 1 ∧ (startCall 0x101 0 [] true).reg 17 ≠ 2 ∧
    (startCall 0x101 0 [] true).reg 17 ≠ 3 ∧ (startCall 0x101 0 [] true).reg 17 ≠ 93 := by decide

end Sys2Proof.Tests
end

section
/-! PROOFS of the statements of 10_state.md: the state, the step and the environment call's character ports. -/

namespace Sys2Proof.Proofs.MachineState

open Sys2Proof.Machine Sys2Proof.Claims

/-! ### What an instruction does to its operands, to the record and to the counters -/

/-- The `pc`-relative offset of a branch or of jal (R200, R215). -/
def pcOffset : Instr → Option Word
  | .beq _ _ imm | .bne _ _ imm | .blt _ _ imm | .bge _ _ imm | .bltu _ _ imm | .bgeu _ _ imm | .jal _ imm => some imm
  | _ => none

/-- `exec_cases` with the operands named: which register is written, and where a transfer of control goes. -/
theorem exec_cases_operands {i : Instr} {s t : State} (h : exec i s = .next t) :
    (∃ rd v, destination i = some rd ∧ t = (s.setReg rd v).advance.retire) ∨
    (∃ x bs, isStore i = true ∧ t = (s.setMem (s.mem.putBytes x bs)).advance.retire) ∨
    (∃ c imm, pcOffset i = some imm ∧ t = (s.setPc (if c then s.pc + imm else s.pc + 4#32)).retireTransfer c) ∨
    (∃ rd x, destination i = some rd ∧ ((∃ imm, pcOffset i = some imm ∧ x = s.pc + imm) ∨ ∃ base imm, x = jalrTarget base imm) ∧
      t = ((s.setReg rd (s.pc + 4#32)).setPc x).retireTransfer true) ∨
    (∃ r, t = s.haltWith r) ∨
    (i = .ecall ∧ execEcall s = .next t) := by
  cases i
  case ecall => exact .inr (.inr (.inr (.inr (.inr ⟨rfl, h⟩))))
  case lb | lh | lw | lbu | lhu =>
    rcases loadAt_cases h with ⟨-, ht⟩ | ⟨v, -, ht⟩
    · exact .inr (.inr (.inr (.inr (.inl ⟨_, ht⟩))))
    · exact .inl ⟨_, _, rfl, ht⟩
  case sb | sh | sw =>
    rcases storeAt_cases h with ⟨-, ht⟩ | ⟨-, ht⟩
    · exact .inr (.inr (.inr (.inr (.inl ⟨_, ht⟩))))
    · exact .inr (.inl ⟨_, _, rfl, ht⟩)
  case beq | bne | blt | bge | bltu | bgeu => exact .inr (.inr (.inl ⟨_, _, rfl, (Host.Outcome.next.inj h).symm⟩))
  case jal => exact .inr (.inr (.inr (.inl ⟨_, _, rfl, .inl ⟨_, rfl, rfl⟩, (Host.Outcome.next.inj h).symm⟩)))
  case jalr => exact .inr (.inr (.inr (.inl ⟨_, _, rfl, .inr ⟨_, _, rfl⟩, (Host.Outcome.next.inj h).symm⟩)))
  all_goals exact .inl ⟨_, _, rfl, (Host.Outcome.next.inj h).symm⟩

/-- What every completing instruction has in common: the run goes on, memory keeps its form, one instruction more is
counted, and one transfer more at most (R34). -/
structure Completes (s t : State) : Prop where
  run : t.run = s.run
  halt : t.halt = s.halt
  params : t.params = s.params
  memory : s.mem.wf → t.mem.wf
  instret : t.instret = s.instret + 1
  transfers : t.nTaken + t.nNotTaken ≤ s.nTaken + s.nNotTaken + 1

section Completing

variable (s : State)

theorem completes_writeReg (rd : RegIdx) (v : Word) : Completes s (s.setReg rd v).advance.retire := by
  constructor <;> simp

theorem completes_readByte (l : List Byte) (rd : RegIdx) (v : Word) :
    Completes s ((s.setInput l).setReg rd v).advance.retire := by
  constructor <;> simp

theorem completes_putChar (b : Byte) : Completes s (putChar b s).advance.retire := by
  constructor <;> simp [putChar]

theorem completes_store (x : Word) (bs : List Byte) :
    Completes s (s.setMem (s.mem.putBytes x bs)).advance.retire :=
  ⟨rfl, rfl, rfl, (Memory.putBytes_wf · x bs), rfl, Nat.le_succ _⟩

theorem completes_branch (x : Word) (c : Bool) : Completes s ((s.setPc x).retireTransfer c) := by
  refine ⟨rfl, rfl, rfl, id, rfl, ?_⟩
  cases c
  · exact Nat.le_refl _
  · exact (Nat.add_right_comm s.nTaken 1 s.nNotTaken).le

theorem completes_jump (rd : RegIdx) (v x : Word) :
    Completes s (((s.setReg rd v).setPc x).retireTransfer true) := by
  constructor <;> simp [Nat.add_right_comm]

end Completing

/-- How an environment call ends. -/
theorem execEcall_ends {s t : State} (h : execEcall s = .next t) :
    (∃ r, t = s.haltWith r ∨ t = s.advance.haltWith r) ∨ t = s.noRetire ∨ Completes s t := by
  rcases ecall_cases h with ⟨-, b, rest, -, rfl⟩ | ⟨-, -, -, rfl⟩ | ⟨-, -, -, rfl⟩ | ⟨-, rfl⟩ | ⟨-, rfl⟩ |
    ⟨-, -, -, -, rfl⟩
  · exact .inr (.inr (completes_readByte _ _ _ _))
  · exact .inr (.inr (completes_writeReg _ _ _))
  · exact .inr (.inl rfl)
  · exact .inr (.inr (completes_putChar _ _))
  · exact .inl ⟨_, .inr rfl⟩
  · exact .inl ⟨_, .inl rfl⟩

/-- How an instruction ends: it halts the core with a record, holds for input, or completes. -/
theorem exec_ends {i : Instr} {s t : State} (h : exec i s = .next t) :
    (∃ r, t = s.haltWith r ∨ t = s.advance.haltWith r) ∨ t = s.noRetire ∨ Completes s t := by
  rcases exec_cases_operands h with ⟨rd, v, -, rfl⟩ | ⟨x, bs, -, rfl⟩ | ⟨c, imm, -, rfl⟩ | ⟨rd, x, -, -, rfl⟩ |
    ⟨r, rfl⟩ | ⟨-, he⟩
  · exact .inr (.inr (completes_writeReg _ _ _))
  · exact .inr (.inr (completes_store s x bs))
  · exact .inr (.inr (completes_branch s _ c))
  · exact .inr (.inr (completes_jump s rd _ x))
  · exact .inl ⟨r, .inl rfl⟩
  · exact execEcall_ends he

/-! ### The state in order (R28, R29, R34, R239) -/

section Ok

variable {s t : State}

theorem ok_advance (h : s.Ok) : s.advance.Ok := ⟨h.memory, h.record, h.counters, h.budget⟩
theorem ok_noRetire (h : s.Ok) : s.noRetire.Ok := ⟨h.memory, h.record, h.counters, h.budget⟩
theorem ok_drive (h : s.Ok) (w : Word) : (s.drive w).Ok := ⟨h.memory, h.record, h.counters, h.budget⟩
theorem ok_haltWith (h : s.Ok) (r : HaltRecord) : (s.haltWith r).Ok := ⟨h.memory, by simp, h.counters, h.budget⟩

/-- The budget that is not used up leaves room for the instruction that completes. -/
theorem ok_of_completes (h : s.Ok) (hb : s.budgetReached = false) (hc : Completes s t) : t.Ok where
  memory := hc.memory h.memory
  record := by rw [hc.run, hc.halt]; exact h.record
  counters := by have := h.counters; have := hc.transfers; have := hc.instret; omega
  budget n hn := by
    rw [hc.params] at hn
    have hne : n ≠ s.instret := fun e => by simp [State.budgetReached, hn, e] at hb
    have := h.budget n hn
    have := hc.instret
    omega

theorem exec_keeps_ok {i : Instr} (h : s.Ok) (hb : s.budgetReached = false) (he : exec i s = .next t) : t.Ok := by
  rcases exec_ends he with ⟨r, rfl | rfl⟩ | rfl | hc
  · exact ok_haltWith h r
  · exact ok_haltWith (ok_advance h) r
  · exact ok_noRetire h
  · exact ok_of_completes h hb hc

theorem step_keeps_ok (h : s.Ok) (hs : step s = .next t) : t.Ok := by
  obtain ⟨-, ⟨-, rfl⟩ | ⟨hb, ⟨-, rfl⟩ | ⟨w, e, -, -, rfl⟩ | ⟨w, i, -, -, he⟩⟩⟩ := step_cases hs
  · exact ok_haltWith h _
  · exact ok_haltWith h _
  · exact ok_haltWith (ok_drive h w) _
  · exact exec_keeps_ok (ok_drive h w) hb he

theorem resetWith_ok (entry : Word) {m0 : Memory} (input : List Byte) (ended : Bool) (params : Params) (h : m0.wf) :
    (State.resetWith entry m0 input ended params).Ok :=
  ⟨h, by simp [State.resetWith], Nat.le_refl 0, fun n _ => Nat.zero_le n⟩

end Ok

/-- Settles O17: what a step can do (`step_cases`), and each way an instruction ends, keeps the data in order. -/
theorem stepKeepsStateOk : Obligations.StepKeepsStateOk := by
  intro s t h hs
  exact step_keeps_ok h hs

/-- Settles O18: counters are 0, the run is open and the memory is the one given. -/
theorem resetStateIsOk : Obligations.ResetStateIsOk := by
  refine ⟨fun entry m0 input ended params h => resetWith_ok entry input ended params h,
    fun entry input ended s h => resetWith_ok entry input ended s.params h, ?_⟩
  exact resetWith_ok Config.entry [] true Params.default State.reset_mem_wf

/-! ### An even `pc` stays even (R27) -/

/-- Bit 0 of a sum of even words is 0. -/
theorem even_add {a b : Word} (ha : a.getLsbD 0 = false) (hb : b.getLsbD 0 = false) : (a + b).getLsbD 0 = false := by
  rw [BitVec.getLsbD_add (by decide), ha, hb, BitVec.carry_zero]
  rfl

theorem jalrTarget_even (base imm : Word) : (jalrTarget base imm).getLsbD 0 = false := by
  simp [jalrTarget]

theorem routeReg_pcOffset {f : Fields} {i : Instr} (h : routeReg f = .ok i) : pcOffset i = none := by
  unfold routeReg routeAlu routeAluAlt routeMulDiv at h
  repeat' split at h
  all_goals cases h
  all_goals rfl

theorem routeImm_pcOffset (f : Fields) : pcOffset (routeImm f) = none := by
  unfold routeImm
  repeat' split
  all_goals rfl

theorem routeLoad_pcOffset {f : Fields} {i : Instr} (h : routeLoad f = .ok i) : pcOffset i = none := by
  unfold routeLoad at h
  split at h <;> cases h <;> rfl

theorem routeStore_pcOffset {f : Fields} {i : Instr} (h : routeStore f = .ok i) : pcOffset i = none := by
  unfold routeStore at h
  split at h <;> cases h <;> rfl

theorem routeBranch_pcOffset {f : Fields} {i : Instr} (h : routeBranch f = .ok i) : pcOffset i = some f.imm := by
  unfold routeBranch at h
  split at h <;> cases h <;> rfl

theorem routeJalr_pcOffset {f : Fields} {i : Instr} (h : routeJalr f = .ok i) : pcOffset i = none := by
  unfold routeJalr at h
  split at h <;> cases h
  rfl

theorem routeSystem_pcOffset {f : Fields} {i : Instr} (h : routeSystem f = .ok i) : pcOffset i = none := by
  unfold routeSystem at h
  split at h <;> cases h
  rfl

/-- The offset of a decoded instruction is the B or the J immediate of its word (R85, R87). -/
theorem pcOffset_of_decode {w : Word} {i : Instr} (hd : decode w = .ok i) :
    pcOffset i = none ∨ pcOffset i = some (immB w) ∨ pcOffset i = some (immJ w) := by
  rcases opcode_cases hd with ho | ho | ho | ho | ho | ho | ho | ho | ho | ho
  · exact .inl (routeReg_pcOffset (decode_of_0x33 ho ▸ hd))
  · cases (decode_of_0x13 ho).symm.trans hd
    exact .inl (routeImm_pcOffset _)
  · exact .inl (routeLoad_pcOffset (decode_of_0x03 ho ▸ hd))
  · exact .inl (routeStore_pcOffset (decode_of_0x23 ho ▸ hd))
  · exact .inr (.inl (routeBranch_pcOffset (decode_of_0x63 ho ▸ hd)))
  · cases (decode_of_0x37 ho).symm.trans hd
    exact .inl rfl
  · cases (decode_of_0x17 ho).symm.trans hd
    exact .inl rfl
  · cases (decode_of_0x6F ho).symm.trans hd
    exact .inr (.inr rfl)
  · exact .inl (routeJalr_pcOffset (decode_of_0x67 ho ▸ hd))
  · exact .inl (routeSystem_pcOffset (decode_of_0x73 ho ▸ hd))

theorem pcOffset_even {w : Word} {i : Instr} {imm : Word} (hd : decode w = .ok i) (hi : pcOffset i = some imm) :
    imm.getLsbD 0 = false := by
  rcases pcOffset_of_decode hd with h | h | h
  · rw [h] at hi; cases hi
  · cases h.symm.trans hi; rw [getLsbD_immB w 0 (by decide)]; rfl
  · cases h.symm.trans hi; rw [getLsbD_immJ w 0 (by decide)]; rfl

/-- Where `pc` stands after an environment call. -/
theorem execEcall_pc {s t : State} (h : execEcall s = .next t) : t.pc = s.pc ∨ t.pc = s.pc + 4#32 := by
  rcases ecall_cases h with ⟨-, b, rest, -, rfl⟩ | ⟨-, -, -, rfl⟩ | ⟨-, -, -, rfl⟩ | ⟨-, rfl⟩ | ⟨-, rfl⟩ |
    ⟨-, -, -, -, rfl⟩
  · exact .inr (by simp)
  · exact .inr (by simp)
  · exact .inl rfl
  · exact .inr rfl
  · exact .inr rfl
  · exact .inl rfl

/-- Where `pc` stands after an instruction. -/
theorem exec_pc {i : Instr} {s t : State} (h : exec i s = .next t) :
    t.pc = s.pc ∨ t.pc = s.pc + 4#32 ∨ (∃ imm, pcOffset i = some imm ∧ t.pc = s.pc + imm) ∨
      ∃ base imm, t.pc = jalrTarget base imm := by
  rcases exec_cases_operands h with ⟨rd, v, -, rfl⟩ | ⟨x, bs, -, rfl⟩ | ⟨c, imm, hoff, rfl⟩ |
    ⟨rd, x, -, ⟨imm, hoff, rfl⟩ | ⟨base, imm, rfl⟩, rfl⟩ | ⟨r, rfl⟩ | ⟨-, he⟩
  · simp
  · simp
  · cases c
    · simp
    · exact .inr (.inr (.inl ⟨imm, hoff, rfl⟩))
  · exact .inr (.inr (.inl ⟨imm, hoff, rfl⟩))
  · exact .inr (.inr (.inr ⟨base, imm, rfl⟩))
  · exact .inl rfl
  · exact (execEcall_pc he).imp_right .inl

theorem exec_even_pc {i : Instr} {s t : State} {w : Word} (hs : s.pc.getLsbD 0 = false) (hd : decode w = .ok i)
    (he : exec i s = .next t) : t.pc.getLsbD 0 = false := by
  rcases exec_pc he with h | h | ⟨imm, hoff, h⟩ | ⟨base, imm, h⟩ <;> rw [h]
  · exact hs
  · exact even_add hs (by decide)
  · exact even_add hs (pcOffset_even hd hoff)
  · exact jalrTarget_even base imm

/-- Settles O19: a halt keeps `pc`, and every instruction adds an even number to it or clears its bit 0. -/
theorem evenPcStaysEven : Obligations.EvenPcStaysEven := by
  intro s t hs h
  obtain ⟨-, ⟨-, rfl⟩ | ⟨-, ⟨-, rfl⟩ | ⟨w, e, -, -, rfl⟩ | ⟨w, i, -, hd, he⟩⟩⟩ := step_cases h
  · exact hs
  · exact hs
  · exact hs
  · exact exec_even_pc (s := s.drive w) hs hd he

/-! ### The register file (R21 to R24) -/

/-- Settles O23, with the rules of the register file. -/
theorem registerFileReads : Obligations.RegisterFileReads := by
  refine ⟨State.reg_zero, fun s r v hr => State.reg_setReg_same s hr v,
    fun s r q v hq => State.reg_setReg_other s hq v, State.resetWith_reg⟩

/-- A register that reads differently after a write is the one written, and is not x[0]. -/
theorem reg_setReg_changed {s : State} {rd r : RegIdx} {v : Word} (h : (s.setReg rd v).reg r ≠ s.reg r) :
    r = rd ∧ r ≠ 0 := by
  constructor
  · by_contra hr
    exact h (State.reg_setReg_other s hr v)
  · rintro rfl
    exact h ((State.reg_zero _).trans (State.reg_zero s).symm)

/-- An environment call changes no register but x[10] (R221, D10). -/
theorem execEcall_reg_changed {s t : State} {r : RegIdx} (h : execEcall s = .next t) (hr : t.reg r ≠ s.reg r) :
    r = 10 ∧ r ≠ 0 := by
  rcases ecall_cases h with ⟨-, b, rest, -, rfl⟩ | ⟨-, -, -, rfl⟩ | ⟨-, -, -, rfl⟩ | ⟨-, rfl⟩ | ⟨-, rfl⟩ |
    ⟨-, -, -, -, rfl⟩
  · exact reg_setReg_changed (s := s.setInput rest) hr
  · exact reg_setReg_changed hr
  all_goals exact absurd rfl hr

/-- Settles O24: every write of an instruction is one `setReg` of its destination. -/
theorem onlyTheDestinationIsWritten : Obligations.OnlyTheDestinationIsWritten := by
  intro i s t r h hr
  rcases exec_cases_operands h with ⟨rd, v, hrd, rfl⟩ | ⟨x, bs, -, rfl⟩ | ⟨c, imm, -, rfl⟩ | ⟨rd, x, hrd, -, rfl⟩ |
    ⟨rcd, rfl⟩ | ⟨rfl, he⟩
  · obtain ⟨rfl, h0⟩ := reg_setReg_changed hr
    exact ⟨hrd, h0⟩
  · exact absurd rfl hr
  · exact absurd rfl hr
  · obtain ⟨rfl, h0⟩ := reg_setReg_changed hr
    exact ⟨hrd, h0⟩
  · exact absurd rfl hr
  · obtain ⟨rfl, h0⟩ := execEcall_reg_changed he hr
    exact ⟨rfl, h0⟩

/-! ### The streams (R32, R33, R40) -/

theorem setReg_sameStreams (s : State) (rd : RegIdx) (v : Word) : SameStreams s (s.setReg rd v) := by simp [SameStreams]

/-- No instruction but the environment call moves a stream. -/
theorem exec_sameStreams {i : Instr} {s t : State} (h : exec i s = .next t) (hi : i ≠ .ecall) : SameStreams s t := by
  rcases exec_cases_operands h with ⟨rd, v, -, rfl⟩ | ⟨x, bs, -, rfl⟩ | ⟨c, imm, -, rfl⟩ | ⟨rd, x, -, -, rfl⟩ |
    ⟨r, rfl⟩ | ⟨he, -⟩
  · exact setReg_sameStreams s rd v
  · exact ⟨rfl, rfl, rfl⟩
  · exact ⟨rfl, rfl, rfl⟩
  · exact setReg_sameStreams s rd _
  · exact ⟨rfl, rfl, rfl⟩
  · exact absurd he hi

/-- What an environment call does with the streams: nothing, one byte taken, or one byte put. -/
theorem execEcall_streams {s t : State} (h : execEcall s = .next t) : t.inputEnded = s.inputEnded ∧
    ((t.input = s.input ∧ t.output = s.output) ∨ (∃ b, s.input = b :: t.input ∧ t.output = s.output) ∨
      ∃ b, t.output = s.output ++ [b] ∧ t.input = s.input) := by
  rcases ecall_cases h with ⟨-, b, rest, hin, rfl⟩ | ⟨-, -, -, rfl⟩ | ⟨-, -, -, rfl⟩ | ⟨-, rfl⟩ | ⟨-, rfl⟩ |
    ⟨-, -, -, -, rfl⟩
  · exact ⟨by simp, .inr (.inl ⟨b, by simp [hin], by simp⟩)⟩
  · exact ⟨by simp, .inl ⟨by simp, by simp⟩⟩
  · exact ⟨rfl, .inl ⟨rfl, rfl⟩⟩
  · exact ⟨rfl, .inr (.inr ⟨_, rfl, rfl⟩)⟩
  · exact ⟨rfl, .inl ⟨rfl, rfl⟩⟩
  · exact ⟨rfl, .inl ⟨rfl, rfl⟩⟩

/-- Settles O26: every other instruction keeps both streams, and the environment call has one effect on one of them. -/
theorem onlyEcallUsesTheStreams : Obligations.OnlyEcallUsesTheStreams := by
  intro i s t h
  refine ⟨exec_sameStreams h, ?_⟩
  by_cases hi : i = .ecall
  · subst hi
    exact execEcall_streams h
  · obtain ⟨hin, hend, hout⟩ := exec_sameStreams h hi
    exact ⟨hend, .inl ⟨hin, hout⟩⟩

/-! ### The step (R28, R36) -/

theorem budgetReached_of_ready {s : State} (h : Ready s) : s.budgetReached = false := by
  simpa [State.budgetReached] using h.2

/-- The word the admitted bytes at `pc` hold is the word fetched (R54, R55). -/
theorem fetch_of_holdsWord {s : State} {w : Word} (h : HoldsWord s w) : s.fetch = some w := by
  obtain ⟨b0, b1, b2, b3, h0, h1, h2, h3, ha, rfl⟩ := h
  exact memRead_four .fetch ha h0 h1 h2 h3

/-- Settles O10: the step's own equation for a word that decodes. -/
theorem stepRunsDecodedInstruction : Obligations.StepRunsDecodedInstruction := by
  intro s w i hready hword hd
  exact step_of_word hready.1 (budgetReached_of_ready hready) (fetch_of_holdsWord hword) hd

/-- A Running core takes a step, whatever stands in its way (R28). -/
theorem step_total {s : State} (h : s.run = .running) : ∃ t, step s = .next t := by
  cases hb : s.budgetReached with
  | true => exact ⟨_, step_of_budget h hb⟩
  | false =>
    cases hf : s.fetch with
    | none => exact ⟨_, step_of_refused_fetch h hb hf⟩
    | some w =>
      cases hd : decode w with
      | error e => exact ⟨_, step_of_illegal h hb hf hd⟩
      | ok i =>
        rw [step_of_word h hb hf hd]
        exact exec_total i (s.drive w)

theorem step_ne_next_of_halted {s t : State} (h : s.run = .halted) : step s ≠ .next t := by
  rw [step_of_halted h]
  exact nofun

/-- A step halts the core with a record, or leaves run state and record as they are. -/
theorem step_run {s t : State} (h : step s = .next t) :
    (t.run = .halted ∧ ∃ r, t.halt = some r) ∨ (t.run = .running ∧ t.halt = s.halt) := by
  obtain ⟨hrun, ⟨-, rfl⟩ | ⟨-, ⟨-, rfl⟩ | ⟨w, e, -, -, rfl⟩ | ⟨w, i, -, -, he⟩⟩⟩ := step_cases h
  · exact .inl ⟨rfl, _, rfl⟩
  · exact .inl ⟨rfl, _, rfl⟩
  · exact .inl ⟨rfl, _, rfl⟩
  · rcases exec_ends he with ⟨r, rfl | rfl⟩ | rfl | hc
    · exact .inl ⟨rfl, _, rfl⟩
    · exact .inl ⟨rfl, _, rfl⟩
    · exact .inr ⟨hrun, rfl⟩
    · exact .inr ⟨hc.run.trans hrun, hc.halt⟩

theorem step_halted_iff {s t : State} (h0 : s.halt = none) (h : step s = .next t) :
    t.run = .halted ↔ t.halt ≠ none := by
  rcases step_run h with ⟨hrun, r, hhalt⟩ | ⟨hrun, hhalt⟩
  · simp [hrun, hhalt]
  · simp [hrun, hhalt, h0]

/-- Settles O11: the step's cases for what the core does, the host's own laws for what the host does. -/
theorem stepsExactlyWhileRunning : Obligations.StepsExactlyWhileRunning :=
  ⟨fun entry input ended s => hostReset_run s entry input ended,
    fun _ => step_total,
    fun _ _ => step_halted_iff,
    fun _ _ => step_ne_next_of_halted,
    fun b s => supplyInput_of_open s b,
    fun b s => supplyInput_of_ended s b,
    fun _ => rfl,
    fun b s => ⟨supplyInput_run s b, endInput_run s⟩⟩

/-- Settles O12: `step` looks at the run state first. -/
theorem haltedCoreAnswersFault : Obligations.HaltedCoreAnswersFault := fun _ => step_of_halted

/-- Settles O16: the placed state is Running with budget left, and fetches the word. -/
theorem placedWordRunsNext : Obligations.PlacedWordRunsNext := by
  intro s w i hd
  rw [withFetchWord_toNat]
  exact ⟨step_of_word rfl (placeWord_budget s w) (placeWord_fetch s w) hd, fun _ => rfl, rfl, rfl, rfl, rfl⟩

/-- Settles O29: each is a field of `State.resetWith`. -/
theorem resetValuesOutsideTheCore : Obligations.ResetValuesOutsideTheCore := by
  rintro entry m0 input ended params s rfl
  exact ⟨rfl, rfl, rfl, rfl, rfl, rfl, rfl, rfl, rfl⟩

/-! ### The character ports of the environment call (R220 to R223) -/

/-- The frame of an instruction whose one effect is a register write. -/
theorem computes_of_writeback {i : Instr} {rd : RegIdx} {v : Word} {s : State} (h : exec i s = writeback rd v s) :
    Computes i rd v s := by
  refine ⟨_, h, ?_, fun r hr => State.reg_setReg_other s hr v, by simp, fun a => by simp, setReg_sameStreams s rd v,
    by simp [SameRun], by simp [Retired, Outputs]⟩
  simp [State.reg_setReg]

/-- Settles O56: a waiting byte is taken off the input and written back, at the end of the input `EOF_VALUE` is. -/
theorem ecallReadsCharacter : Obligations.EcallReadsCharacter := by
  intro s h17
  constructor
  · intro b rest hin
    refine ⟨_, (execEcall_read h17).trans (ecallRead_byte hin), ?_, by simp,
      fun r hr => State.reg_setReg_other (s.setInput rest) hr _, by simp, by simp, by simp, fun a => by simp,
      by simp [SameRun], by simp [Retired, Outputs]⟩
    exact (State.reg_setReg_same (s.setInput rest) (by decide) _).trans (BitVec.ofNat_toNat 32 b).symm
  · intro hin hend
    exact computes_of_writeback ((execEcall_read h17).trans (ecallRead_end hin hend))

/-- Settles O57: a held call answers `noRetire`, which touches the observer outputs alone. -/
theorem ecallReadHoldsForInput : Obligations.EcallReadHoldsForInput := by
  intro s h17 hin hend
  refine ⟨s.noRetire, (execEcall_read h17).trans (ecallRead_hold hin hend), fun _ => rfl, rfl, fun _ => rfl, ?_⟩
  exact ⟨⟨rfl, rfl, rfl⟩, ⟨rfl, rfl, rfl⟩, ⟨rfl, rfl, rfl⟩, rfl⟩

/-- Settles O58: the low byte of x[10] is its value modulo 256. -/
theorem ecallWritesCharacter : Obligations.EcallWritesCharacter := by
  intro s h17
  have hbyte : (s.reg 10).setWidth 8 = BitVec.ofNat 8 ((s.reg 10).toNat % 256) := by
    apply BitVec.eq_of_toNat_eq
    simp
  exact ⟨_, execEcall_write h17, congrArg (s.output ++ [·]) hbyte, rfl, rfl, fun _ => rfl, rfl, fun _ => rfl,
    ⟨rfl, rfl, rfl⟩, ⟨rfl, rfl, rfl, rfl⟩⟩

end Sys2Proof.Proofs.MachineState
end

section
/-! PROOFS of the statements of 20_memory.md: what the memory admits, who changes it, and a store seen by later reads. -/

namespace Sys2Proof.Proofs.MemoryPort

open Sys2Proof.Machine Sys2Proof.Claims Sys2Proof.Proofs.MachineState

/-! ### What an instruction does to memory and parameters (R50, R51, R61) -/

/-- The environment call makes no request of the memory (R61). -/
theorem execEcall_mem {s t : State} (h : execEcall s = .next t) : t.mem = s.mem := by
  rcases ecall_cases h with ⟨-, b, rest, -, rfl⟩ | ⟨-, -, -, rfl⟩ | ⟨-, -, -, rfl⟩ | ⟨-, rfl⟩ | ⟨-, rfl⟩ |
    ⟨-, -, -, -, rfl⟩
  · simp
  · simp
  all_goals rfl

/-- The memory after an instruction: as before, or with the bytes of the instruction's own admitted store put. -/
theorem exec_mem {i : Instr} {s t : State} (h : exec i s = .next t) :
    t.mem = s.mem ∨ ∃ x n v, dataAccess i s = some (.store, x, n) ∧ s.memAdmit .store x n = true ∧
      t.mem = s.mem.putBytes x (leBytes v n.bytes) := by
  rcases exec_cases h with ⟨rd, v, rfl⟩ | ⟨x, n, v, hacc, ha, rfl⟩ | ⟨c, imm, rfl⟩ | ⟨rd, x, rfl⟩ |
    ⟨kind, x, n, -, -, -, rfl⟩ | ⟨-, he⟩
  · exact .inl (by simp)
  · exact .inr ⟨x, n, v, hacc, ha, rfl⟩
  · exact .inl rfl
  · exact .inl (by simp)
  · exact .inl rfl
  · exact .inl (execEcall_mem he)

/-- However an instruction ends, the parameters stay (R51). -/
theorem exec_params {i : Instr} {s t : State} (h : exec i s = .next t) : t.params = s.params := by
  rcases exec_ends h with ⟨r, rfl | rfl⟩ | rfl | hc
  · rfl
  · rfl
  · rfl
  · exact hc.params

/-! ### The mapped set (R51, R59) -/

/-- The bytes of one access fit in the address space (R60), so that none is written twice. -/
theorem leBytes_length_le (v : Word) (n : Width) : (leBytes v n.bytes).length ≤ 2 ^ 32 := by
  rw [leBytes_length]
  cases n <;> decide

/-- An admitted store writes mapped bytes only, so the same bytes are mapped after it (R59). -/
theorem isSome_byteAt_store {s : State} {x : Word} {n : Width} (ha : s.memAdmit .store x n = true) (v : Word) (a : Nat) :
    ((s.mem.putBytes x (leBytes v n.bytes)).byteAt a).isSome = (s.mem.byteAt a).isSome := by
  obtain ⟨-, hmapped⟩ := (memAdmit_iff s .store x n).1 ha
  apply Memory.isSome_putBytes _ _ _ (leBytes_length_le v n)
  rw [leBytes_length]
  exact (Memory.bytesAt_isSome s.mem x n.bytes).2 hmapped

theorem exec_keeps_mapped {i : Instr} {s t : State} (h : exec i s = .next t) (a : Nat) :
    (t.mem.byteAt a).isSome = (s.mem.byteAt a).isSome := by
  rcases exec_mem h with hm | ⟨x, n, v, -, ha, hm⟩ <;> rw [hm]
  exact isSome_byteAt_store ha v a

/-- Settles O20: every halt keeps memory and parameters whole, and an instruction writes admitted bytes only. -/
theorem stepKeepsMappedSetAndParameters : Obligations.StepKeepsMappedSetAndParameters := by
  intro s t h
  obtain ⟨-, ⟨-, rfl⟩ | ⟨-, ⟨-, rfl⟩ | ⟨w, e, -, -, rfl⟩ | ⟨w, i, -, -, he⟩⟩⟩ := step_cases h
  · exact ⟨rfl, fun _ => rfl⟩
  · exact ⟨rfl, fun _ => rfl⟩
  · exact ⟨rfl, fun _ => rfl⟩
  · exact ⟨exec_params (s := s.drive w) he, exec_keeps_mapped (s := s.drive w) he⟩

/-! ### Who writes (R50, R61) -/

/-- The instructions that request a store are sb, sh and sw. -/
theorem isStore_of_dataAccess {i : Instr} {s : State} {x : Word} {n : Width}
    (h : dataAccess i s = some (.store, x, n)) : isStore i = true := by
  cases i
  case sb | sh | sw => rfl
  all_goals cases h

/-- Settles O25: the only change of memory is the put of the instruction's own store. -/
theorem onlyStoresChangeMemory : Obligations.OnlyStoresChangeMemory := by
  intro i s t h hi a
  rcases exec_mem h with hm | ⟨x, n, v, hacc, -, -⟩
  · rw [hm]
  · exact absurd (isStore_of_dataAccess hacc) (by simp [hi])

/-! ### Admission (R51, R58, R59) -/

/-- What it takes for a refused range not to cover a request. -/
theorem covers_eq_false_iff (r : RefusedRange) (kind : AccessKind) (x : Word) (n : Width) :
    r.covers kind x n = false ↔
      (r.kind = kind → r.width = n → ¬ (r.first.toNat ≤ x.toNat ∧ x.toNat ≤ r.last.toNat)) := by
  rw [← Bool.not_eq_true, RefusedRange.covers_iff, not_and, not_and]

/-- `MemAdmit` with the policy spelled out: alignment, refused ranges, mapped bytes. -/
theorem memAdmit_iff_policy (s : State) (kind : AccessKind) (x : Word) (n : Width) :
    s.memAdmit kind x n = true ↔
      (s.params.policy.enforceAlignment = true → n.bytes ∣ x.toNat) ∧
      (∀ r ∈ s.params.policy.refused, r.kind = kind → r.width = n →
        ¬ (r.first.toNat ≤ x.toNat ∧ x.toNat ≤ r.last.toNat)) ∧
      ∀ k < n.bytes, (s.mem.byteAt (x + BitVec.ofNat 32 k).toNat).isSome = true := by
  simp only [memAdmit_iff, AdmitPolicy.admits_iff, covers_eq_false_iff, and_assoc]

/-- Settles O27: the reference policy has neither alignment nor refused ranges, and each refusal breaks one conjunct. -/
theorem referenceMemoryAdmitsMappedBytes : Obligations.ReferenceMemoryAdmitsMappedBytes := by
  refine ⟨?reference, memAdmit_iff_policy, ?misaligned, ?refused⟩
  case reference =>
    intro s kind x n hp
    rw [memAdmit_iff_policy, hp]
    simp [AdmitPolicy.reference]
  case misaligned =>
    intro s kind x n he hx
    refine Bool.eq_false_iff.2 fun h => ?_
    obtain ⟨halign, -, -⟩ := (memAdmit_iff_policy s kind x n).1 h
    exact hx (halign he)
  case refused =>
    intro s r x hr hfirst hlast
    refine Bool.eq_false_iff.2 fun h => ?_
    obtain ⟨-, hrange, -⟩ := (memAdmit_iff_policy s r.kind x r.width).1 h
    exact hrange r hr rfl rfl ⟨hfirst, hlast⟩

/-! ### A store seen by later reads (R56, R64, R66) -/

section Stored

variable {s t : State} {x v : Word} {n : Width}

/-- Byte `k` of the stored value stands at offset `k` after an admitted store (R53, R55). -/
theorem storeAt_byteAt (ha : s.memAdmit .store x n = true) (h : storeAt x n v s = .next t) {k : Nat} (hk : k < n.bytes) :
    t.mem.byteAt (x + BitVec.ofNat 32 k).toNat = some (byteOf v k) := by
  cases (storeAt_of_admit ha).symm.trans h
  have hput := Memory.byteAt_putBytes s.mem x (leBytes v n.bytes) (leBytes_length_le v n) k (by simpa using hk)
  rwa [leBytes_getElem] at hput

theorem storeAt_pc (ha : s.memAdmit .store x n = true) (h : storeAt x n v s = .next t) : t.pc = s.pc + 4 := by
  cases (storeAt_of_admit ha).symm.trans h
  rfl

/-- A fetch of four bytes that are those of a word reads the word (R54, R55). -/
theorem holdsWord_of_bytes (hb : ∀ k < 4, t.mem.byteAt (t.pc + BitVec.ofNat 32 k).toNat = some (byteOf v k))
    (ha : t.params.policy.admits .fetch t.pc .four = true) : HoldsWord t v := by
  have h0 := hb 0 (by decide)
  rw [BitVec.add_zero] at h0
  exact ⟨_, _, _, _, h0, hb 1 (by decide), hb 2 (by decide), hb 3 (by decide), ha, (wordOfBytes_byteOf v).symm⟩

/-- A read of four bytes that are those of a word answers the word (R52, R55). -/
theorem memRead_four_of_bytes (kind : AccessKind)
    (hb : ∀ k < 4, t.mem.byteAt (x + BitVec.ofNat 32 k).toNat = some (byteOf v k))
    (ha : t.params.policy.admits kind x .four = true) : t.memRead kind x .four = some v := by
  have h0 := hb 0 (by decide)
  rw [BitVec.add_zero] at h0
  have hread := memRead_four kind ha h0 (hb 1 (by decide)) (hb 2 (by decide)) (hb 3 (by decide))
  rwa [wordOfBytes_byteOf] at hread

variable {rd rs : RegIdx} {off : Word}

/-- lw of a readable word computes that word (R183). -/
theorem lw_computes (hx : t.reg rs + off = x) (hr : t.memRead .load x .four = some v) :
    Computes (.lw rd rs off) rd v t := by
  subst hx
  exact computes_of_writeback (loadAt_of_read hr)

/-- A byte loaded unsigned is its own zero extension (R184). -/
theorem zextByte_setWidth (b : Byte) : zextByte (b.setWidth 32) = b.setWidth 32 := by
  rw [zextByte, BitVec.setWidth_setWidth_of_le b (by decide), BitVec.setWidth_eq]

/-- lbu of a mapped byte that the policy admits computes that byte (R184). -/
theorem lbu_computes {b : Byte} (hx : t.reg rs + off = x) (hb : t.mem.byteAt x.toNat = some b)
    (ha : t.params.policy.admits .load x .one = true) : Computes (.lbu rd rs off) rd (b.setWidth 32) t := by
  subst hx
  have hread := loadAt_of_read (rd := rd) (ext := zextByte) (memRead_one .load ha hb)
  rw [zextByte_setWidth] at hread
  exact computes_of_writeback hread

/-- Byte `k` of a word as arithmetic on its value (R55). -/
theorem byteOf_setWidth (v : Word) (k : Nat) :
    (byteOf v k).setWidth 32 = BitVec.ofNat 32 (v.toNat / 2 ^ (8 * k) % 2 ^ 8) := by
  apply BitVec.eq_of_toNat_eq
  simp [byteOf, Nat.shiftRight_eq_div_pow]

end Stored

/-- Settles O52: the four bytes sw puts are the bytes that lw, lbu and the fetch read. -/
theorem storedWordIsSeenByLoadsAndFetch : Obligations.StoredWordIsSeenByLoadsAndFetch := by
  rintro rs1 rs2 rd rs imm off s t ea rfl ha hsw
  have hstore : storeAt (s.reg rs1 + imm) .four (s.reg rs2) s = .next t := hsw
  have hbytes : ∀ k < 4, t.mem.byteAt (s.reg rs1 + imm + BitVec.ofNat 32 k).toNat = some (byteOf (s.reg rs2) k) :=
    fun k hk => storeAt_byteAt ha hstore hk
  refine ⟨?lw, ?lbu, ?fetch⟩
  case lw =>
    intro hx hadmit
    exact lw_computes hx (memRead_four_of_bytes .load hbytes hadmit)
  case lbu =>
    intro k hk hx hadmit
    rw [← byteOf_setWidth]
    exact lbu_computes hx (hbytes k hk) hadmit
  case fetch =>
    intro hx hadmit
    have hpc : t.pc = s.reg rs1 + imm := (storeAt_pc ha hstore).trans hx.symm
    rw [← hpc] at hbytes hadmit
    exact holdsWord_of_bytes hbytes hadmit

end Sys2Proof.Proofs.MemoryPort
end

section
/-! PROOFS of the statements of 30_encoding.md: the encoder and the decoder, the mask table, the Illegal set and the
format decoders. -/

namespace Sys2Proof.Proofs.Encoding

open Sys2Proof.Machine Sys2Proof.Claims

/-! ### Decoding inverts encoding (R82 to R87, R92) -/

section FieldsOfEncoded

variable (f7 : BitVec 7) (rs2 rs1 rd : RegIdx) (f3 : BitVec 3) (op : BitVec 7) {imm : Word}

theorem fieldsR_encR : fieldsR (encR f7 rs2 rs1 f3 rd op) = ⟨op, rd, f3, rs1, rs2, f7, 0⟩ := by simp [fieldsR]

theorem fieldsI_encI (h : imm12 imm = true) : fieldsI (encI imm rs1 f3 rd op) = ⟨op, rd, f3, rs1, 0, 0, imm⟩ := by
  simp [fieldsI, immI_encI, imm12_signExtend h]

theorem fieldsS_encS (h : imm12 imm = true) : fieldsS (encS imm rs2 rs1 f3 op) = ⟨op, 0, f3, rs1, rs2, 0, imm⟩ := by
  simp [fieldsS, immS_encS, imm12_signExtend h]

theorem fieldsB_encB (h : imm13 imm = true) : fieldsB (encB imm rs2 rs1 f3 op) = ⟨op, 0, f3, rs1, rs2, 0, imm⟩ := by
  simp [fieldsB, immB_encB, imm13_signExtend h]

end FieldsOfEncoded

/-- The routing of an immediate shift to the left: `shamt` is the `rs2` field, the bits above it are ignored (R160). -/
theorem routeImm_shiftLeft {w : Word} (h3 : funct3Of w = 1#3) :
    routeImm (fieldsI w) = .slli (rdOf w) (rs1Of w) (rs2Of w) := by
  simp [routeImm, fieldsI, shamtOf, h3]

theorem and_0x20_eq_zero_iff (f7 : BitVec 7) : f7 &&& 0x20#7 = 0#7 ↔ f7[5] = false := by
  revert f7; decide

theorem and_0x20_cases (f7 : BitVec 7) : f7 &&& 0x20#7 = 0#7 ∨ f7 &&& 0x20#7 = 0x20#7 := by
  revert f7; decide

/-- The routing of an immediate shift to the right: of the bits above `shamt`, `w[30]` alone counts (R94, R160). -/
theorem routeImm_shiftRight {w : Word} (h3 : funct3Of w = 5#3) :
    routeImm (fieldsI w) =
      if funct7Of w &&& 0x20#7 = 0#7 then .srli (rdOf w) (rs1Of w) (rs2Of w)
      else .srai (rdOf w) (rs1Of w) (rs2Of w) := by
  cases hb : (funct7Of w)[5] <;> simp [routeImm, fieldsI, shamtOf, h3, and_0x20_eq_zero_iff, hb]

section Shifts

variable {w : Word} (ho : opcodeOf w = 0x13#7)

include ho

theorem decode_of_slli (h3 : funct3Of w = 1#3) : decode w = .ok (.slli (rdOf w) (rs1Of w) (rs2Of w)) := by
  rw [decode_of_0x13 ho, routeImm_shiftLeft h3]

theorem decode_of_srli (h3 : funct3Of w = 5#3) (h7 : funct7Of w &&& 0x20#7 = 0#7) :
    decode w = .ok (.srli (rdOf w) (rs1Of w) (rs2Of w)) := by
  rw [decode_of_0x13 ho, routeImm_shiftRight h3, if_pos h7]

theorem decode_of_srai (h3 : funct3Of w = 5#3) (h7 : funct7Of w &&& 0x20#7 = 0x20#7) :
    decode w = .ok (.srai (rdOf w) (rs1Of w) (rs2Of w)) := by
  rw [decode_of_0x13 ho, routeImm_shiftRight h3, if_neg (ne_of_eq_of_ne h7 (by decide))]

end Shifts

/-- The decoder inverts the encoder, one case per family of R90: the fields of the encoded word are the operands. -/
theorem decode_encode {i : Instr} (h : i.wf = true) : decode (encode i) = .ok i := by
  cases i
  case add | sll | slt | sltu | xor | srl | or | and =>
    simp [encode, decode_of_0x33, fieldsR_encR, routeReg, routeAlu]
  case sub | sra => simp [encode, decode_of_0x33, fieldsR_encR, routeReg, routeAluAlt]
  case mul | mulh | mulhsu | mulhu | div | divu | rem | remu =>
    simp [encode, decode_of_0x33, fieldsR_encR, routeReg, routeMulDiv]
  case slli => simp [encode, decode_of_slli]
  case srli => simp [encode, decode_of_srli]
  case srai => simp [encode, decode_of_srai]
  case addi | slti | sltiu | xori | ori | andi => simp [encode, decode_of_0x13, fieldsI_encI _ _ _ _ h, routeImm]
  case lb | lh | lw | lbu | lhu => simp [encode, decode_of_0x03, fieldsI_encI _ _ _ _ h, routeLoad]
  case sb | sh | sw => simp [encode, decode_of_0x23, fieldsS_encS _ _ _ _ h, routeStore]
  case beq | bne | blt | bge | bltu | bgeu => simp [encode, decode_of_0x63, fieldsB_encB _ _ _ _ h, routeBranch]
  case lui => simp [encode, decode_of_0x37, immU_encU, imm20_setWidth h]
  case auipc => simp [encode, decode_of_0x17, immU_encU, imm20_setWidth h]
  case jal => simp [encode, decode_of_0x6F, immJ_encJ, imm21_signExtend h]
  case jalr => simp [encode, decode_of_0x67, fieldsI_encI _ _ _ _ h, routeJalr]
  case ecall => rfl

/-- Settles O1: `decode_encode`, and four bytes decode as the word they hold. -/
theorem decodeInvertsEncode : Obligations.DecodeInvertsEncode := fun _ h =>
  ⟨decode_encode h, decodeBytes_bytesOfWord (decode_encode h)⟩

/-! ### The format decoders (R88) -/

/-- The signed value of two parts put together. -/
theorem toInt_append_of_pos {n m : Nat} (hn : 0 < n) (x : BitVec n) (y : BitVec m) :
    (x ++ y).toInt = x.toInt * 2 ^ m + y.toNat := by
  rw [BitVec.toInt_append, if_neg (by simpa using hn.ne'), mul_comm]

/-- An immediate that ends in a 0 is twice the number before that bit. -/
theorem toInt_signExtend_append_zero {n : Nat} (hn : n + 1 ≤ 32) (v : BitVec n) :
    ((v ++ 0#1).signExtend 32).toInt = 2 * v.toInt := by
  rw [BitVec.toInt_signExtend_of_le hn, BitVec.toInt_append]
  split_ifs with h0
  · obtain rfl : n = 0 := by simpa using h0
    simp [BitVec.eq_nil v]
  · simp

/-- The top `n` bits, read as two's complement, are the floor of the number by what lies below them. -/
theorem toInt_extractLsb'_top (n lo : Nat) (hn : 0 < n) (w : BitVec (n + lo)) :
    (w.extractLsb' lo n).toInt = w.toInt / 2 ^ lo := by
  have hw : w.toInt = (w.extractLsb' lo n).toInt * 2 ^ lo + (w.extractLsb' 0 lo).toNat := by
    rw [← toInt_append_of_pos hn, BitVec.extractLsb'_append_extractLsb'_eq_extractLsb' (by simp),
      BitVec.extractLsb'_eq_self]
  have hlow : ((w.extractLsb' 0 lo).toNat : Int) < 2 ^ lo := mod_cast (w.extractLsb' 0 lo).isLt
  rw [hw, Int.add_comm, Int.add_mul_ediv_right _ _ (by positivity), Int.ediv_eq_zero_of_lt (by positivity) hlow,
    Int.zero_add]

section Immediates

variable (w : Word)

theorem toInt_immI : (immI w).toInt = w.toInt / 2 ^ 20 := by
  rw [immI, BitVec.toInt_signExtend_of_le (by decide)]
  exact toInt_extractLsb'_top 12 20 (by decide) w

theorem toInt_immS : (immS w).toInt = w.toInt / 2 ^ 25 * 2 ^ 5 + (w.toNat / 2 ^ 7 % 2 ^ 5 : Nat) := by
  have htop : (w.extractLsb' 25 7).toInt = w.toInt / 2 ^ 25 := toInt_extractLsb'_top 7 25 (by decide) w
  rw [immS, BitVec.toInt_signExtend_of_le (by decide), toInt_append_of_pos (n := 7) (by decide), htop,
    BitVec.extractLsb'_toNat, Nat.shiftRight_eq_div_pow]

theorem toInt_immB : (immB w).toInt = w.toInt / 2 ^ 31 * 2 ^ 12 +
    (w.toNat / 2 ^ 7 % 2 * 2 ^ 11 + w.toNat / 2 ^ 25 % 2 ^ 6 * 2 ^ 5 + w.toNat / 2 ^ 8 % 2 ^ 4 * 2 : Nat) := by
  have htop : (w.extractLsb' 31 1).toInt = w.toInt / 2 ^ 31 := toInt_extractLsb'_top 1 31 (by decide) w
  rw [immB, toInt_signExtend_append_zero (by decide), toInt_append_of_pos (n := 1 + 1 + 6) (by decide),
    toInt_append_of_pos (n := 1 + 1) (by decide), toInt_append_of_pos (n := 1) (by decide), htop]
  simp only [BitVec.extractLsb'_toNat, Nat.shiftRight_eq_div_pow]
  push_cast
  ring

theorem toNat_immU : (immU w).toNat = w.toNat / 2 ^ 12 := by
  have hw := w.isLt
  rw [immU, BitVec.toNat_setWidth_of_le (by decide), BitVec.extractLsb'_toNat, Nat.shiftRight_eq_div_pow]
  omega

theorem toInt_immJ : (immJ w).toInt = w.toInt / 2 ^ 31 * 2 ^ 20 +
    (w.toNat / 2 ^ 12 % 2 ^ 8 * 2 ^ 12 + w.toNat / 2 ^ 20 % 2 * 2 ^ 11 + w.toNat / 2 ^ 21 % 2 ^ 10 * 2 : Nat) := by
  have htop : (w.extractLsb' 31 1).toInt = w.toInt / 2 ^ 31 := toInt_extractLsb'_top 1 31 (by decide) w
  rw [immJ, toInt_signExtend_append_zero (by decide), toInt_append_of_pos (n := 1 + 8 + 1) (by decide),
    toInt_append_of_pos (n := 1 + 8) (by decide), toInt_append_of_pos (n := 1) (by decide), htop]
  simp only [BitVec.extractLsb'_toNat, Nat.shiftRight_eq_div_pow]
  push_cast
  ring

end Immediates

/-- Settles O8: the unused fields are zero by definition, each immediate is the number its parts add up to. -/
theorem formatDecodersContract : Obligations.FormatDecodersContract := fun w =>
  ⟨rfl, ⟨rfl, rfl⟩, ⟨rfl, rfl⟩, ⟨rfl, rfl⟩, ⟨rfl, rfl, rfl, rfl⟩, ⟨rfl, rfl, rfl, rfl⟩, toInt_immI w, toInt_immS w,
    toInt_immB w, toNat_immU w, toInt_immJ w, getLsbD_immB w 0 (by decide), getLsbD_immJ w 0 (by decide)⟩

/-! ### A decoded immediate is one its format can carry (R83 to R87) -/

section Ranges

variable (w : Word)

theorem imm12_signExtend_field (v : BitVec 12) : imm12 (v.signExtend 32) = true := by
  have hlo := v.le_toInt
  have hhi := v.toInt_lt
  rw [imm12, decide_eq_true_eq, BitVec.toInt_signExtend_of_le (by decide)]
  omega

theorem imm12_immI : imm12 (immI w) = true := imm12_signExtend_field _

theorem imm12_immS : imm12 (immS w) = true := imm12_signExtend_field _

theorem imm13_immB : imm13 (immB w) = true := by
  obtain ⟨v, hv⟩ : ∃ v : BitVec 12, (immB w).toInt = 2 * v.toInt := ⟨_, toInt_signExtend_append_zero (by decide) _⟩
  have hlo := v.le_toInt
  have hhi := v.toInt_lt
  simp only [imm13, getLsbD_immB w 0 (by decide), hv, if_true, Bool.not_false, Bool.and_true, decide_eq_true_eq]
  omega

theorem imm20_immU : imm20 (immU w) = true := by
  have hw := w.isLt
  rw [imm20, decide_eq_true_eq, toNat_immU]
  omega

theorem imm21_immJ : imm21 (immJ w) = true := by
  obtain ⟨v, hv⟩ : ∃ v : BitVec 20, (immJ w).toInt = 2 * v.toInt := ⟨_, toInt_signExtend_append_zero (by decide) _⟩
  have hlo := v.le_toInt
  have hhi := v.toInt_lt
  simp only [imm21, getLsbD_immJ w 0 (by decide), hv, if_true, Bool.not_false, Bool.and_true, decide_eq_true_eq]
  omega

end Ranges

/-! ### The encoder gives back the fields that were routed

Each inner dispatch answers an instruction whose word is put together from the fields it was given. -/

section Routes

variable {f : Fields} {i : Instr}

theorem encode_routeReg (ho : f.opcode = 0x33#7) (h : routeReg f = .ok i) :
    i.wf = true ∧ encode i = encR f.funct7 f.rs2 f.rs1 f.funct3 f.rd f.opcode := by
  obtain ⟨op, rd, f3, rs1, rs2, f7, imm⟩ := f
  obtain rfl : op = 0x33#7 := ho
  unfold routeReg at h
  split_ifs at h with h7 h7 h7
  all_goals
    obtain rfl : f7 = _ := h7
    rcases funct3_cases f3 with rfl | rfl | rfl | rfl | rfl | rfl | rfl | rfl
    all_goals cases h
    all_goals exact ⟨rfl, rfl⟩

theorem encode_routeImm (ho : f.opcode = 0x13#7) (h1 : f.funct3 ≠ 1#3) (h5 : f.funct3 ≠ 5#3) :
    (routeImm f).wf = imm12 f.imm ∧ encode (routeImm f) = encI f.imm f.rs1 f.funct3 f.rd f.opcode := by
  obtain ⟨op, rd, f3, rs1, rs2, f7, imm⟩ := f
  obtain rfl : op = 0x13#7 := ho
  rcases funct3_cases f3 with rfl | rfl | rfl | rfl | rfl | rfl | rfl | rfl
  case inr.inl => exact absurd rfl h1
  case inr.inr.inr.inr.inr.inl => exact absurd rfl h5
  all_goals exact ⟨rfl, rfl⟩

theorem encode_routeLoad (ho : f.opcode = 0x03#7) (h : routeLoad f = .ok i) :
    i.wf = imm12 f.imm ∧ encode i = encI f.imm f.rs1 f.funct3 f.rd f.opcode := by
  obtain ⟨op, rd, f3, rs1, rs2, f7, imm⟩ := f
  obtain rfl : op = 0x03#7 := ho
  rcases funct3_cases f3 with rfl | rfl | rfl | rfl | rfl | rfl | rfl | rfl
  all_goals cases h
  all_goals exact ⟨rfl, rfl⟩

theorem encode_routeStore (ho : f.opcode = 0x23#7) (h : routeStore f = .ok i) :
    i.wf = imm12 f.imm ∧ encode i = encS f.imm f.rs2 f.rs1 f.funct3 f.opcode := by
  obtain ⟨op, rd, f3, rs1, rs2, f7, imm⟩ := f
  obtain rfl : op = 0x23#7 := ho
  rcases funct3_cases f3 with rfl | rfl | rfl | rfl | rfl | rfl | rfl | rfl
  all_goals cases h
  all_goals exact ⟨rfl, rfl⟩

theorem encode_routeBranch (ho : f.opcode = 0x63#7) (h : routeBranch f = .ok i) :
    i.wf = imm13 f.imm ∧ encode i = encB f.imm f.rs2 f.rs1 f.funct3 f.opcode := by
  obtain ⟨op, rd, f3, rs1, rs2, f7, imm⟩ := f
  obtain rfl : op = 0x63#7 := ho
  rcases funct3_cases f3 with rfl | rfl | rfl | rfl | rfl | rfl | rfl | rfl
  all_goals cases h
  all_goals exact ⟨rfl, rfl⟩

theorem encode_routeJalr (ho : f.opcode = 0x67#7) (h : routeJalr f = .ok i) :
    i.wf = imm12 f.imm ∧ encode i = encI f.imm f.rs1 f.funct3 f.rd f.opcode := by
  obtain ⟨op, rd, f3, rs1, rs2, f7, imm⟩ := f
  obtain rfl : op = 0x67#7 := ho
  unfold routeJalr at h
  split_ifs at h with h3
  obtain rfl : f3 = 0#3 := h3
  cases h
  exact ⟨rfl, rfl⟩

theorem routeSystem_eq_ok_iff : routeSystem f = .ok i ↔ f.funct3 = 0#3 ∧ i = .ecall := by
  unfold routeSystem
  split_ifs with h3 <;> simp [h3, eq_comm]

end Routes

/-! ### The bits an instruction keeps (R101) -/

theorem encR_and (f7 g7 : BitVec 7) (rs2 qs2 rs1 qs1 rd qd : RegIdx) (f3 g3 : BitVec 3) (op oq : BitVec 7) :
    encR f7 rs2 rs1 f3 rd op &&& encR g7 qs2 qs1 g3 qd oq =
      encR (f7 &&& g7) (rs2 &&& qs2) (rs1 &&& qs1) (f3 &&& g3) (rd &&& qd) (op &&& oq) := by
  ext k hk
  simp only [BitVec.getElem_and, getElem_encR, BitVec.getLsbD_and]
  split_ifs <;> rfl

/-- The mask that keeps every field of an R-layout word but `funct7`, of which it keeps the bits of `m7`. -/
def keepMask (m7 : BitVec 7) : Word := encR m7 (.allOnes 5) (.allOnes 5) (.allOnes 3) (.allOnes 5) (.allOnes 7)

theorem and_keepMask_iff {w v : Word} {m7 : BitVec 7} :
    w &&& keepMask m7 = v &&& keepMask m7 ↔
      funct7Of w &&& m7 = funct7Of v &&& m7 ∧ rs2Of w = rs2Of v ∧ rs1Of w = rs1Of v ∧ funct3Of w = funct3Of v ∧
        rdOf w = rdOf v ∧ opcodeOf w = opcodeOf v := by
  rw [keepMask]
  nth_rw 1 [← encR_fields w, ← encR_fields v]
  simp only [encR_and, BitVec.and_allOnes]
  exact ⟨encR_inj, by rintro ⟨h7, h2, h1, h3, hd, ho⟩; rw [h7, h2, h1, h3, hd, ho]⟩

theorem not_ignoredBits_slli (rd rs1 : RegIdx) (sh : BitVec 5) : ~~~ignoredBits (.slli rd rs1 sh) = keepMask 0 := by
  change ~~~0xFE000000#32 = _
  decide

theorem not_ignoredBits_srli (rd rs1 : RegIdx) (sh : BitVec 5) : ~~~ignoredBits (.srli rd rs1 sh) = keepMask 0x20 := by
  change ~~~0xBE000000#32 = _
  decide

theorem not_ignoredBits_srai (rd rs1 : RegIdx) (sh : BitVec 5) : ~~~ignoredBits (.srai rd rs1 sh) = keepMask 0x20 :=
  not_ignoredBits_srli rd rs1 sh

/-- The environment call keeps its opcode and its `funct3`. -/
theorem and_not_ignoredBits_ecall {w : Word} :
    w &&& ~~~ignoredBits .ecall = 0x73#32 ↔ funct3Of w = 0#3 ∧ opcodeOf w = 0x73#7 := by
  have hmask : w &&& ~~~ignoredBits .ecall = encR 0 0 0 (funct3Of w) 0 (opcodeOf w) := and_mask_funct3 w
  have hword : 0x73#32 = encR 0 0 0 0 0 0x73 := by decide
  rw [hmask, hword]
  constructor
  · intro h
    obtain ⟨-, -, -, h3, -, ho⟩ := encR_inj h
    exact ⟨h3, ho⟩
  · rintro ⟨h3, ho⟩
    rw [h3, ho]
    rfl

/-! ### Encoding inverts decoding up to the ignored bits -/

/-- Opcode 0x13: the shifts ignore bits of `funct7`, every other instruction keeps the whole word. -/
theorem encode_decode_of_0x13 {w : Word} (ho : opcodeOf w = 0x13#7) :
    (routeImm (fieldsI w)).wf = true ∧
      w &&& ~~~ignoredBits (routeImm (fieldsI w)) =
        encode (routeImm (fieldsI w)) &&& ~~~ignoredBits (routeImm (fieldsI w)) := by
  by_cases h1 : funct3Of w = 1#3
  · rw [routeImm_shiftLeft h1, not_ignoredBits_slli, and_keepMask_iff]
    exact ⟨rfl, by simp [encode, h1, ho]⟩
  by_cases h5 : funct3Of w = 5#3
  · rw [routeImm_shiftRight h5]
    split_ifs with h7
    · rw [not_ignoredBits_srli, and_keepMask_iff]
      exact ⟨rfl, by simp [encode, h5, ho, h7]⟩
    · rw [not_ignoredBits_srai, and_keepMask_iff]
      exact ⟨rfl, by simp [encode, h5, ho, (and_0x20_cases _).resolve_left h7]⟩
  · obtain ⟨hwf, he⟩ := encode_routeImm (f := fieldsI w) ho h1 h5
    have hw : encode (routeImm (fieldsI w)) = w := he.trans (encI_fields w)
    exact ⟨hwf.trans (imm12_immI w), by rw [hw]⟩

/-- Under the eight opcodes without ignored bits the encoder gives the whole word back. -/
theorem encode_decode_whole {w : Word} {i : Instr} (hd : decode w = .ok i) (h13 : opcodeOf w ≠ 0x13#7)
    (h73 : opcodeOf w ≠ 0x73#7) : i.wf = true ∧ encode i = w := by
  rcases opcode_cases hd with ho | ho | ho | ho | ho | ho | ho | ho | ho | ho
  · obtain ⟨hwf, he⟩ := encode_routeReg ho (decode_of_0x33 ho ▸ hd)
    exact ⟨hwf, he.trans (encR_fields w)⟩
  · exact absurd ho h13
  · obtain ⟨hwf, he⟩ := encode_routeLoad ho (decode_of_0x03 ho ▸ hd)
    exact ⟨hwf.trans (imm12_immI w), he.trans (encI_fields w)⟩
  · obtain ⟨hwf, he⟩ := encode_routeStore ho (decode_of_0x23 ho ▸ hd)
    exact ⟨hwf.trans (imm12_immS w), he.trans (encS_fields w)⟩
  · obtain ⟨hwf, he⟩ := encode_routeBranch ho (decode_of_0x63 ho ▸ hd)
    exact ⟨hwf.trans (imm13_immB w), he.trans (encB_fields w)⟩
  · cases (decode_of_0x37 ho).symm.trans hd
    exact ⟨imm20_immU w, (congrArg _ ho).symm.trans (encU_fields w)⟩
  · cases (decode_of_0x17 ho).symm.trans hd
    exact ⟨imm20_immU w, (congrArg _ ho).symm.trans (encU_fields w)⟩
  · cases (decode_of_0x6F ho).symm.trans hd
    exact ⟨imm21_immJ w, (congrArg _ ho).symm.trans (encJ_fields w)⟩
  · obtain ⟨hwf, he⟩ := encode_routeJalr ho (decode_of_0x67 ho ▸ hd)
    exact ⟨hwf.trans (imm12_immI w), he.trans (encI_fields w)⟩
  · exact absurd ho h73

/-- Settles O2: only opcodes 0x13 and 0x73 have instructions with ignored bits. -/
theorem encodeInvertsDecodeUpToIgnoredBits : Obligations.EncodeInvertsDecodeUpToIgnoredBits := by
  intro w i hd
  by_cases h13 : opcodeOf w = 0x13#7
  · cases (decode_of_0x13 h13).symm.trans hd
    exact encode_decode_of_0x13 h13
  by_cases h73 : opcodeOf w = 0x73#7
  · obtain ⟨h3, rfl⟩ := routeSystem_eq_ok_iff.1 (decode_of_0x73 h73 ▸ hd)
    exact ⟨rfl, and_not_ignoredBits_ecall.2 ⟨h3, h73⟩⟩
  · obtain ⟨hwf, hw⟩ := encode_decode_whole hd h13 h73
    exact ⟨hwf, by rw [hw]⟩

/-- Settles O5: `v` agrees with `encode i` on the bits `i` keeps. They are the fields that route to a shift or to ecall,
and for every other instruction they are all bits, so `v` is `encode i`. -/
theorem ignoredBitsDoNotMatter : Obligations.IgnoredBitsDoNotMatter := by
  intro w v i hd hv
  obtain ⟨hwf, hw⟩ := encodeInvertsDecodeUpToIgnoredBits w i hd
  have hkept : v &&& ~~~ignoredBits i = encode i &&& ~~~ignoredBits i := hv.symm.trans hw
  cases i
  case slli =>
    rw [not_ignoredBits_slli, and_keepMask_iff] at hkept
    simp only [encode, rs2Of_encR, rs1Of_encR, funct3Of_encR, rdOf_encR, opcodeOf_encR] at hkept
    obtain ⟨-, h2, h1, h3, hrd, ho⟩ := hkept
    rw [decode_of_slli ho h3, h2, h1, hrd]
  case srli =>
    rw [not_ignoredBits_srli, and_keepMask_iff] at hkept
    simp only [encode, funct7Of_encR, rs2Of_encR, rs1Of_encR, funct3Of_encR, rdOf_encR, opcodeOf_encR] at hkept
    obtain ⟨h7, h2, h1, h3, hrd, ho⟩ := hkept
    rw [decode_of_srli ho h3 h7, h2, h1, hrd]
  case srai =>
    rw [not_ignoredBits_srai, and_keepMask_iff] at hkept
    simp only [encode, funct7Of_encR, rs2Of_encR, rs1Of_encR, funct3Of_encR, rdOf_encR, opcodeOf_encR] at hkept
    obtain ⟨h7, h2, h1, h3, hrd, ho⟩ := hkept
    rw [decode_of_srai ho h3 h7, h2, h1, hrd]
  case ecall =>
    obtain ⟨h3, ho⟩ := and_not_ignoredBits_ecall.1 hkept
    rw [decode_of_0x73 ho]
    exact routeSystem_eq_ok_iff.2 ⟨h3, rfl⟩
  all_goals
    change v &&& ~~~0#32 = encode _ &&& ~~~0#32 at hkept
    rw [BitVec.not_zero, BitVec.and_allOnes, BitVec.and_allOnes] at hkept
    exact hkept ▸ decode_encode hwf

/-! ### The mask table (R92) -/

/-- An encoded instruction matches its own row. -/
theorem encode_and_mask (i : Instr) : encode i &&& i.row.mask = i.row.value := by
  cases i
  case add | sll | slt | sltu | xor | srl | or | and | sub | sra | mul | mulh | mulhsu | mulhu | div | divu | rem | remu =>
    refine (and_mask_funct7 _).trans ?_
    simp only [encode, funct7Of_encR, funct3Of_encR, opcodeOf_encR, Instr.row]
    decide
  case srli | srai =>
    refine (and_mask_bit30 _).trans ?_
    simp only [encode, funct7Of_encR, funct3Of_encR, opcodeOf_encR, Instr.row]
    decide
  case lui | auipc | jal =>
    refine (and_mask_opcode _).trans ?_
    simp only [encode, opcodeOf_encU, opcodeOf_encJ, Instr.row]
    decide
  case ecall => decide
  all_goals
    refine (and_mask_funct3 _).trans ?_
    simp only [encode, funct3Of_encR, opcodeOf_encR, funct3Of_encI, opcodeOf_encI, funct3Of_encS, opcodeOf_encS,
      funct3Of_encB, opcodeOf_encB, Instr.row]
    decide

/-- A row compares no bit its instruction ignores. -/
theorem not_ignoredBits_and_mask (i : Instr) : ~~~ignoredBits i &&& i.row.mask = i.row.mask := by
  cases i
  case slli => change ~~~0xFE000000#32 &&& 0x0000707F#32 = 0x0000707F#32; decide
  case srli | srai => change ~~~0xBE000000#32 &&& 0x4000707F#32 = 0x4000707F#32; decide
  case ecall => change ~~~0xFFFF8F80#32 &&& 0x0000707F#32 = 0x0000707F#32; decide
  all_goals
    change ~~~0#32 &&& _ = _
    rw [BitVec.not_zero, BitVec.allOnes_and]

theorem and_mask_of_decode {w : Word} {i : Instr} (hd : decode w = .ok i) : w &&& i.row.mask = i.row.value := by
  obtain ⟨-, hw⟩ := encodeInvertsDecodeUpToIgnoredBits w i hd
  calc w &&& i.row.mask
    _ = w &&& ~~~ignoredBits i &&& i.row.mask := by rw [BitVec.and_assoc, not_ignoredBits_and_mask]
    _ = encode i &&& i.row.mask := by rw [hw, BitVec.and_assoc, not_ignoredBits_and_mask]
    _ = i.row.value := encode_and_mask i

section MaskedFields

variable {w v : Word}

theorem fields_of_and_mask_opcode (h : w &&& 0x0000007F#32 = v &&& 0x0000007F#32) : opcodeOf w = opcodeOf v := by
  rw [and_mask_opcode, and_mask_opcode] at h
  obtain ⟨-, -, -, -, -, ho⟩ := encR_inj h
  exact ho

theorem fields_of_and_mask_funct3 (h : w &&& 0x0000707F#32 = v &&& 0x0000707F#32) :
    funct3Of w = funct3Of v ∧ opcodeOf w = opcodeOf v := by
  rw [and_mask_funct3, and_mask_funct3] at h
  obtain ⟨-, -, -, h3, -, ho⟩ := encR_inj h
  exact ⟨h3, ho⟩

theorem fields_of_and_mask_funct7 (h : w &&& 0xFE00707F#32 = v &&& 0xFE00707F#32) :
    funct7Of w = funct7Of v ∧ funct3Of w = funct3Of v ∧ opcodeOf w = opcodeOf v := by
  rw [and_mask_funct7, and_mask_funct7] at h
  obtain ⟨h7, -, -, h3, -, ho⟩ := encR_inj h
  exact ⟨h7, h3, ho⟩

theorem fields_of_and_mask_bit30 (h : w &&& 0x4000707F#32 = v &&& 0x4000707F#32) :
    funct7Of w &&& 0x20#7 = funct7Of v &&& 0x20#7 ∧ funct3Of w = funct3Of v ∧ opcodeOf w = opcodeOf v := by
  rw [and_mask_bit30, and_mask_bit30] at h
  obtain ⟨h7, -, -, h3, -, ho⟩ := encR_inj h
  exact ⟨h7, h3, ho⟩

end MaskedFields

/-- A word that matches a row has, in the fields the row compares, what the row's instruction encodes there; these fields
route it to the row. -/
theorem decode_of_and_mask {w : Word} {j : Instr} (h : w &&& j.row.mask = j.row.value) :
    ∃ i, decode w = .ok i ∧ i.row = j.row := by
  rw [← encode_and_mask j] at h
  cases j
  case add | sll | slt | sltu | xor | srl | or | and | sub | sra | mul | mulh | mulhsu | mulhu | div | divu | rem | remu =>
    obtain ⟨h7, h3, ho⟩ := fields_of_and_mask_funct7 h
    simp only [encode, funct7Of_encR, funct3Of_encR, opcodeOf_encR] at h7 h3 ho
    rw [decode_of_0x33 ho, fieldsR, h7, h3]
    exact ⟨_, rfl, rfl⟩
  case slli =>
    obtain ⟨h3, ho⟩ := fields_of_and_mask_funct3 h
    simp only [encode, funct3Of_encR, opcodeOf_encR] at h3 ho
    exact ⟨_, decode_of_slli ho h3, rfl⟩
  case srli =>
    obtain ⟨h7, h3, ho⟩ := fields_of_and_mask_bit30 h
    simp only [encode, funct7Of_encR, funct3Of_encR, opcodeOf_encR] at h7 h3 ho
    exact ⟨_, decode_of_srli ho h3 h7, rfl⟩
  case srai =>
    obtain ⟨h7, h3, ho⟩ := fields_of_and_mask_bit30 h
    simp only [encode, funct7Of_encR, funct3Of_encR, opcodeOf_encR] at h7 h3 ho
    exact ⟨_, decode_of_srai ho h3 h7, rfl⟩
  case addi | slti | sltiu | xori | ori | andi =>
    obtain ⟨h3, ho⟩ := fields_of_and_mask_funct3 h
    simp only [encode, funct3Of_encI, opcodeOf_encI] at h3 ho
    rw [decode_of_0x13 ho, fieldsI, h3]
    exact ⟨_, rfl, rfl⟩
  case lb | lh | lw | lbu | lhu =>
    obtain ⟨h3, ho⟩ := fields_of_and_mask_funct3 h
    simp only [encode, funct3Of_encI, opcodeOf_encI] at h3 ho
    rw [decode_of_0x03 ho, fieldsI, h3]
    exact ⟨_, rfl, rfl⟩
  case sb | sh | sw =>
    obtain ⟨h3, ho⟩ := fields_of_and_mask_funct3 h
    simp only [encode, funct3Of_encS, opcodeOf_encS] at h3 ho
    rw [decode_of_0x23 ho, fieldsS, h3]
    exact ⟨_, rfl, rfl⟩
  case beq | bne | blt | bge | bltu | bgeu =>
    obtain ⟨h3, ho⟩ := fields_of_and_mask_funct3 h
    simp only [encode, funct3Of_encB, opcodeOf_encB] at h3 ho
    rw [decode_of_0x63 ho, fieldsB, h3]
    exact ⟨_, rfl, rfl⟩
  case lui => exact ⟨_, decode_of_0x37 ((fields_of_and_mask_opcode h).trans (opcodeOf_encU ..)), rfl⟩
  case auipc => exact ⟨_, decode_of_0x17 ((fields_of_and_mask_opcode h).trans (opcodeOf_encU ..)), rfl⟩
  case jal => exact ⟨_, decode_of_0x6F ((fields_of_and_mask_opcode h).trans (opcodeOf_encJ ..)), rfl⟩
  case jalr =>
    obtain ⟨h3, ho⟩ := fields_of_and_mask_funct3 h
    simp only [encode, funct3Of_encI, opcodeOf_encI] at h3 ho
    rw [decode_of_0x67 ho, fieldsI, h3]
    exact ⟨_, rfl, rfl⟩
  case ecall =>
    obtain ⟨h3, ho⟩ := and_not_ignoredBits_ecall.1 h
    exact ⟨.ecall, (decode_of_0x73 ho).trans (routeSystem_eq_ok_iff.2 ⟨h3, rfl⟩), rfl⟩

/-- Settles O3: a word that matches a row is routed to it, and a decoded word matches the row it was routed to. -/
theorem dispatchAgreesWithMaskTable : Obligations.DispatchAgreesWithMaskTable := by
  intro w j
  constructor
  · exact decode_of_and_mask
  · rintro ⟨i, hd, hrow⟩
    rw [← hrow]
    exact and_mask_of_decode hd

/-! ### What each inner dispatch refuses (R102) -/

section Refusals

variable (f : Fields)

theorem routeReg_error_iff : (∃ e, routeReg f = .error e) ↔
    f.funct7.toNat ∉ [0x00, 0x20, 0x01] ∨ f.funct7.toNat = 0x20 ∧ f.funct3.toNat ∉ [0, 5] := by
  obtain ⟨op, rd, f3, rs1, rs2, f7, imm⟩ := f
  unfold routeReg
  split_ifs with h0 h20 h1
  · obtain rfl : f7 = 0x00#7 := h0
    simp
  · obtain rfl : f7 = 0x20#7 := h20
    rcases funct3_cases f3 with rfl | rfl | rfl | rfl | rfl | rfl | rfl | rfl <;> simp [routeAluAlt]
  · obtain rfl : f7 = 0x01#7 := h1
    simp
  · simp_all [BitVec.toNat_eq]

theorem routeLoad_error_iff : (∃ e, routeLoad f = .error e) ↔ f.funct3.toNat ∈ [3, 6, 7] := by
  rcases funct3_cases f.funct3 with h | h | h | h | h | h | h | h <;> simp [routeLoad, h]

theorem routeStore_error_iff : (∃ e, routeStore f = .error e) ↔ f.funct3.toNat ∈ [3, 4, 5, 6, 7] := by
  rcases funct3_cases f.funct3 with h | h | h | h | h | h | h | h <;> simp [routeStore, h]

theorem routeBranch_error_iff : (∃ e, routeBranch f = .error e) ↔ f.funct3.toNat ∈ [2, 3] := by
  rcases funct3_cases f.funct3 with h | h | h | h | h | h | h | h <;> simp [routeBranch, h]

theorem routeJalr_error_iff : (∃ e, routeJalr f = .error e) ↔ f.funct3.toNat ≠ 0 := by
  rcases funct3_cases f.funct3 with h | h | h | h | h | h | h | h <;> simp [routeJalr, h]

theorem routeSystem_error_iff : (∃ e, routeSystem f = .error e) ↔ f.funct3.toNat ≠ 0 := by
  rcases funct3_cases f.funct3 with h | h | h | h | h | h | h | h <;> simp [routeSystem, h]

end Refusals

/-- Settles O4: under each opcode the Illegal set is what its inner dispatch refuses; an opcode outside the table is in
it, and opcodes 0x13, 0x37, 0x17 and 0x6F refuse nothing. -/
theorem illegalSetIsExact : Obligations.IllegalSetIsExact := by
  intro w
  rw [IllegalWord, ← opcodeOf_toNat, ← funct3Of_toNat, ← funct7Of_toNat]
  unfold decode
  split
  case h_1 ho => simpa [ho, fieldsR] using (routeReg_error_iff (fieldsR w)).symm
  case h_2 ho => simp [ho]
  case h_3 ho => simpa [ho, fieldsI] using (routeLoad_error_iff (fieldsI w)).symm
  case h_4 ho => simpa [ho, fieldsS] using (routeStore_error_iff (fieldsS w)).symm
  case h_5 ho => simpa [ho, fieldsB] using (routeBranch_error_iff (fieldsB w)).symm
  case h_6 ho | h_7 ho | h_8 ho => simp [ho]
  case h_9 ho => simpa [ho, fieldsI] using (routeJalr_error_iff (fieldsI w)).symm
  case h_10 ho => simpa [ho, fieldsI] using (routeSystem_error_iff (fieldsI w)).symm
  case h_11 => exact iff_of_true (.inl (by simp_all)) ⟨_, rfl⟩

/-! ### The inner dispatch, opcode by opcode (R93, R96) -/

theorem decode_wordR (f7 : BitVec 7) (rs2 rs1 rd : RegIdx) (f3 : BitVec 3) :
    decode (wordR f7 rs2 rs1 f3 rd 0x33) = routeReg ⟨0x33, rd, f3, rs1, rs2, f7, 0⟩ := by
  have ho : opcodeOf (encR f7 rs2 rs1 f3 rd 0x33) = 0x33#7 := opcodeOf_encR ..
  exact (decode_of_0x33 ho).trans (by rw [fieldsR_encR])

/-- Settles O6: by `decode_wordR` the dispatch is `routeReg`, which computes for each `funct3`; its refusals are
`routeReg_error_iff`. -/
theorem registerOpcodeDispatch : Obligations.RegisterOpcodeDispatch := by
  intro rd rs1 rs2 f3
  simp only [decode_wordR]
  refine ⟨?alu, rfl, rfl, ?noAlt, ?mulDiv, ?noFunct7⟩
  case alu | mulDiv =>
    rcases funct3_cases f3 with rfl | rfl | rfl | rfl | rfl | rfl | rfl | rfl <;> exact ⟨_, rfl, rfl⟩
  case noAlt =>
    intro h0 h5
    exact (routeReg_error_iff _).2 (.inr ⟨rfl, by simpa [BitVec.toNat_eq] using And.intro h0 h5⟩)
  case noFunct7 =>
    intro f7 h0 h20 h1
    exact (routeReg_error_iff _).2 (.inl (by simpa [BitVec.toNat_eq] using And.intro h0 (And.intro h20 h1)))

/-- Settles O7: the equation of each opcode, with what its inner dispatch accepts and refuses. -/
theorem opcodesWithoutInnerDispatch : Obligations.OpcodesWithoutInnerDispatch := by
  intro w
  rw [← opcodeOf_toNat, ← funct3Of_toNat]
  refine ⟨fun ho => decode_of_0x37 (BitVec.eq_of_toNat_eq ho), fun ho => decode_of_0x17 (BitVec.eq_of_toNat_eq ho),
    fun ho => decode_of_0x6F (BitVec.eq_of_toNat_eq ho), ?jalr, ?noJalr, ?ecall, ?noEcall⟩ <;> intro ho h3
  case jalr =>
    rw [decode_of_0x67 (BitVec.eq_of_toNat_eq ho), routeJalr, if_pos (BitVec.eq_of_toNat_eq h3)]
    rfl
  case noJalr =>
    rw [decode_of_0x67 (BitVec.eq_of_toNat_eq ho)]
    exact (routeJalr_error_iff (fieldsI w)).2 h3
  case ecall =>
    rw [decode_of_0x73 (BitVec.eq_of_toNat_eq ho)]
    exact routeSystem_eq_ok_iff.2 ⟨BitVec.eq_of_toNat_eq h3, rfl⟩
  case noEcall =>
    rw [decode_of_0x73 (BitVec.eq_of_toNat_eq ho)]
    exact (routeSystem_error_iff (fieldsI w)).2 h3

/-- Settles O9: the decoder computes on each of the thirteen words. -/
theorem exampleWordsDecode : Obligations.ExampleWordsDecode := by
  refine ⟨?_, ?_, ?_, ?_, ?_, ?_, ?_, ?_, ?_, ?_, ?_, ?_, ?_⟩ <;> decide

end Sys2Proof.Proofs.Encoding
end

section
/-! PROOFS of the statements of 40_alu_reg.md: the register-register ALU. What the shifts and the comparisons compute is
stated for any operands, so that the immediate forms may cite it. -/

namespace Sys2Proof.Proofs.RegisterAlu

open Sys2Proof.Machine Sys2Proof.Claims Sys2Proof.Proofs.MachineState Sys2Proof.Proofs.Encoding

/-! ### Subtraction and the shifts as integer laws, and the value of a comparison -/

section Values

variable (v a b : Word) (n : Nat)

theorem sub_eq_ofInt : a - b = BitVec.ofInt 32 (a.toNat - b.toNat) := by
  rw [Int.sub_eq_add_neg, BitVec.ofInt_add, BitVec.ofInt_neg, ← BitVec.sub_eq_add_neg]
  simp

theorem shiftAmount_eq_mod : shiftAmount v = v.toNat % 32 := BitVec.extractLsb'_toNat 0 5 v

theorem shiftLeft_eq_ofNat_mul : shiftLeft v n = BitVec.ofNat 32 (v.toNat * 2 ^ n) := by
  apply BitVec.eq_of_toNat_eq
  rw [shiftLeft, BitVec.toNat_shiftLeft, BitVec.toNat_ofNat, Nat.shiftLeft_eq]

theorem shiftRight_eq_ofNat_div : shiftRight v n = BitVec.ofNat 32 (v.toNat / 2 ^ n) := by
  rw [← Nat.shiftRight_eq_div_pow, ← BitVec.toNat_ushiftRight, BitVec.ofNat_toNat, BitVec.setWidth_eq, shiftRight]

/-- Division of integers by a positive number is the floor, so the shift rounds toward minus infinity (R127). -/
theorem shiftRightArith_eq_ofInt_div : shiftRightArith v n = BitVec.ofInt 32 (v.toInt / 2 ^ n) := by
  rw [shiftRightArith, BitVec.sshiftRight_eq, Int.shiftRight_eq_div_pow, Nat.cast_pow, Nat.cast_ofNat]

theorem boolWord_lessSigned : boolWord (lessSigned a b) = if a.toInt < b.toInt then 1 else 0 := by
  simp [boolWord, lessSigned]

theorem boolWord_lessUnsigned : boolWord (lessUnsigned a b) = if a.toNat < b.toNat then 1 else 0 := by
  simp [boolWord, lessUnsigned]

end Values

/-! ### The statements -/

/-- Settles O32: `decode_wordR` gives the encodings, `computes_of_writeback` the frame, and each bit is the library's. -/
theorem bitwiseRegisterOperations : Obligations.BitwiseRegisterOperations := by
  intro rd rs1 rs2 s
  refine ⟨⟨(decode_wordR ..).trans rfl, _, computes_of_writeback rfl, ?xor⟩,
    ⟨(decode_wordR ..).trans rfl, _, computes_of_writeback rfl, ?or⟩,
    ⟨(decode_wordR ..).trans rfl, _, computes_of_writeback rfl, ?and⟩⟩ <;> intro k _
  case xor => rw [BitVec.getLsbD_xor, Bool.bne_eq_xor]
  case or => exact BitVec.getLsbD_or
  case and => exact BitVec.getLsbD_and

/-- Settles O30: the sum modulo 2^32 is addition of words. -/
theorem addComputesSum : Obligations.AddComputesSum := by
  intro rd rs1 rs2 s
  rw [← BitVec.add_def]
  exact ⟨(decode_wordR ..).trans rfl, computes_of_writeback rfl⟩

/-- Settles O31: the difference modulo 2^32 is subtraction of words. -/
theorem subtractComputesDifference : Obligations.SubtractComputesDifference := by
  intro rd rs1 rs2 s
  rw [← sub_eq_ofInt]
  exact ⟨(decode_wordR ..).trans rfl, computes_of_writeback rfl⟩

/-- Settles O33: the amount is `x[rs2]` modulo 32, and each shift is its integer law at that amount. -/
theorem registerShifts : Obligations.RegisterShifts := by
  intro rd rs1 rs2 s
  rw [← shiftAmount_eq_mod, ← shiftLeft_eq_ofNat_mul, ← shiftRight_eq_ofNat_div, ← shiftRightArith_eq_ofInt_div]
  exact ⟨computes_of_writeback rfl, computes_of_writeback rfl, computes_of_writeback rfl⟩

/-- Settles O34: the value written is `boolWord` of the comparison. -/
theorem registerComparisons : Obligations.RegisterComparisons := by
  intro rd rs1 rs2 s
  rw [← boolWord_lessSigned, ← boolWord_lessUnsigned]
  exact ⟨computes_of_writeback rfl, computes_of_writeback rfl⟩

end Sys2Proof.Proofs.RegisterAlu
end

section
/-! PROOFS of the statements of 41_muldiv.md: the multiply and divide instructions. The values of the two units are stated
for any operands: a high word is the floor of the exact product by 2^32, and away from the special rows of R150 the
quotients and remainders are the library's. -/

namespace Sys2Proof.Proofs.MulDiv

open Sys2Proof.Machine Sys2Proof.Claims Sys2Proof.Proofs.MachineState

/-- `computes_of_writeback` with the value written out as the law has it. -/
theorem computes_of_writeback_eq {i : Instr} {rd : RegIdx} {u v : Word} {s : State} (h : exec i s = writeback rd u s)
    (huv : u = v) : Computes i rd v s :=
  huv ▸ computes_of_writeback h

/-! ### Products (R140 to R143, R148) -/

section Products

variable (p : Int) (a b : Word)

theorem highWord_eq_ofInt_div : highWord p = BitVec.ofInt 32 (p / 2 ^ 32) := by
  apply BitVec.eq_of_toNat_eq
  rw [highWord, BitVec.extractLsb'_toNat, BitVec.toNat_ofInt, BitVec.toNat_ofInt, Nat.shiftRight_eq_div_pow]
  omega

theorem extractLsb'_zero_ofInt : (BitVec.ofInt 64 p).extractLsb' 0 32 = BitVec.ofInt 32 p := by
  apply BitVec.eq_of_toNat_eq
  rw [BitVec.extractLsb'_toNat, BitVec.toNat_ofInt, BitVec.toNat_ofInt, Nat.shiftRight_zero]
  omega

/-- The two halves of a number make it up again. -/
theorem highWord_append_ofInt : highWord p ++ BitVec.ofInt 32 p = BitVec.ofInt 64 p := by
  rw [highWord, ← extractLsb'_zero_ofInt]
  exact BitVec.extractLsb'_append_extractLsb'

/-- The low word is the same for the signed and the unsigned product (R140). -/
theorem mulLow_eq_ofInt_mul : mulLow a b = BitVec.ofInt 32 (a.toInt * b.toInt) := by
  rw [BitVec.ofInt_mul, BitVec.ofInt_toInt, BitVec.ofInt_toInt, mulLow, BitVec.ofNat_mul, BitVec.ofNat_toNat,
    BitVec.ofNat_toNat, BitVec.setWidth_eq, BitVec.setWidth_eq]

theorem mulHighUnsigned_eq_ofNat_div : mulHighUnsigned a b = BitVec.ofNat 32 (a.toNat * b.toNat / 2 ^ 32) := by
  rw [mulHighUnsigned, highWord_eq_ofInt_div, ← BitVec.ofInt_natCast]
  rfl

theorem toNat_mulHighUnsigned_append_mulLow :
    (mulHighUnsigned a b ++ mulLow a b : BitVec 64).toNat = a.toNat * b.toNat := by
  rw [mulHighUnsigned, mulLow, ← BitVec.ofInt_natCast, highWord_append_ofInt, BitVec.ofInt_natCast]
  exact Nat.mod_eq_of_lt BitVec.toNat_mul_toNat_lt

theorem toInt_mulHighSigned_append_mulLow :
    (mulHighSigned a b ++ mulLow a b : BitVec 64).toInt = a.toInt * b.toInt := by
  have hlo : -2 ^ 62 ≤ a.toInt * b.toInt := BitVec.le_toInt_mul_toInt
  have hhi : a.toInt * b.toInt ≤ 2 ^ 62 := BitVec.toInt_mul_toInt_le
  rw [mulHighSigned, mulLow_eq_ofInt_mul, highWord_append_ofInt]
  exact BitVec.toInt_ofInt_eq_self (by decide) (by omega) (by omega)

end Products

/-! ### Quotients and remainders, row by row of R150 -/

section Quotients

variable {a b : Word}

theorem divSigned_of_eq_zero (hb : b = 0#32) : divSigned a b = 0xFFFFFFFF := if_pos hb

theorem divUnsigned_of_eq_zero (hb : b = 0#32) : divUnsigned a b = 0xFFFFFFFF := if_pos hb

theorem remSigned_of_eq_zero (hb : b = 0#32) : remSigned a b = a := if_pos hb

theorem remUnsigned_of_eq_zero (hb : b = 0#32) : remUnsigned a b = a := if_pos hb

theorem divUnsigned_eq_div (hb : b ≠ 0#32) : divUnsigned a b = a / b := (if_neg hb).trans BitVec.udiv_def.symm

theorem remUnsigned_eq_mod (hb : b ≠ 0#32) : remUnsigned a b = a % b := by
  rw [remUnsigned, if_neg hb, ← Nat.mod_eq_sub, BitVec.umod_def]

theorem divOverflows_eq_true_iff : divOverflows a b = true ↔ a = 0x80000000 ∧ b = 0xFFFFFFFF := by
  rw [divOverflows, decide_eq_true_eq, ← BitVec.toInt_inj, ← BitVec.toInt_inj]
  rfl

theorem toInt_sdiv_of_not_overflow (hov : ¬ (a = 0x80000000 ∧ b = 0xFFFFFFFF)) :
    (a.sdiv b).toInt = a.toInt.tdiv b.toInt :=
  BitVec.toInt_sdiv_of_ne_or_ne a b (not_and_or.1 hov)

theorem divSigned_eq_sdiv (hb : b ≠ 0#32) (hov : ¬ (a = 0x80000000 ∧ b = 0xFFFFFFFF)) : divSigned a b = a.sdiv b := by
  rw [divSigned, if_neg hb, if_neg (mt divOverflows_eq_true_iff.1 hov), ← toInt_sdiv_of_not_overflow hov,
    BitVec.ofInt_toInt]

theorem remSigned_eq_srem (hb : b ≠ 0#32) (hov : ¬ (a = 0x80000000 ∧ b = 0xFFFFFFFF)) : remSigned a b = a.srem b := by
  rw [remSigned, if_neg hb, if_neg (mt divOverflows_eq_true_iff.1 hov), ← Int.tmod_def, ← BitVec.toInt_srem,
    BitVec.ofInt_toInt]

end Quotients

/-! ### The remainder of the division that rounds toward zero -/

section Remainder

variable {m n : Int}

theorem abs_tmod_lt_abs (hn : n ≠ 0) : |m.tmod n| < |n| := by
  rw [Int.abs_eq_natAbs, Int.abs_eq_natAbs, Int.natAbs_tmod]
  exact Int.ofNat_lt.2 (Nat.mod_lt _ (Int.natAbs_pos.2 hn))

theorem tmod_eq_zero_or_sign_eq : m.tmod n = 0 ∨ (m.tmod n).sign = m.sign := by
  by_cases hdvd : n ∣ m
  · exact .inl (Int.tmod_eq_zero_of_dvd hdvd)
  · exact .inr ((Int.sign_tmod m n).trans (if_neg hdvd))

end Remainder

/-! ### The statements -/

/-- Settles O35: the low word is the product modulo 2^32, each high word the floor of its exact product. -/
theorem multiplyKeepsItsHalf : Obligations.MultiplyKeepsItsHalf := by
  intro rd rs1 rs2 s
  exact ⟨computes_of_writeback_eq rfl (mulLow_eq_ofInt_mul ..), computes_of_writeback_eq rfl (highWord_eq_ofInt_div _),
    computes_of_writeback_eq rfl (highWord_eq_ofInt_div _), computes_of_writeback_eq rfl (mulHighUnsigned_eq_ofNat_div ..)⟩

/-- Settles O36: the halves make up the 64-bit number of the product, and 64 bits hold either product. -/
theorem multiplyHalvesFormTheProduct : Obligations.MultiplyHalvesFormTheProduct := by
  intro rd rs1 rs2 s
  exact ⟨_, _, _, computes_of_writeback rfl, computes_of_writeback rfl, computes_of_writeback rfl,
    toNat_mulHighUnsigned_append_mulLow .., toInt_mulHighSigned_append_mulLow ..⟩

/-- Settles O39: the unit's words are the quotient and the remainder of the division that rounds toward zero. -/
theorem signedDivisionLaw : Obligations.SignedDivisionLaw := by
  intro rd rs1 rs2 s hb hov
  refine ⟨_, _, computes_of_writeback_eq rfl (divSigned_eq_sdiv hb hov),
    computes_of_writeback_eq rfl (remSigned_eq_srem hb hov), ?_⟩
  rw [toInt_sdiv_of_not_overflow hov, BitVec.toInt_srem]
  exact ⟨(Int.mul_tdiv_add_tmod ..).symm, abs_tmod_lt_abs (BitVec.toInt_ne.2 hb), tmod_eq_zero_or_sign_eq⟩

/-- Settles O40: the unit's words are the quotient and the remainder of the unsigned values. -/
theorem unsignedDivisionLaw : Obligations.UnsignedDivisionLaw := by
  intro rd rs1 rs2 s hb
  refine ⟨_, _, computes_of_writeback_eq rfl (divUnsigned_eq_div hb),
    computes_of_writeback_eq rfl (remUnsigned_eq_mod hb), ?_⟩
  rw [BitVec.toNat_udiv, BitVec.toNat_umod]
  exact ⟨(Nat.div_add_mod ..).symm, Nat.mod_lt _ (Nat.pos_of_ne_zero (BitVec.toNat_ne.1 hb))⟩

/-- Settles O37: the first test of each unit is for the divisor 0. -/
theorem divisionByZeroIsDefined : Obligations.DivisionByZeroIsDefined := by
  intro rd rs1 rs2 s hb
  exact ⟨computes_of_writeback_eq rfl (divSigned_of_eq_zero hb), computes_of_writeback_eq rfl (divUnsigned_of_eq_zero hb),
    computes_of_writeback_eq rfl (remSigned_of_eq_zero hb), computes_of_writeback_eq rfl (remUnsigned_of_eq_zero hb)⟩

/-- Settles O38: both operands are given, so each unit computes its word. -/
theorem divisionOverflowIsDefined : Obligations.DivisionOverflowIsDefined := by
  intro rd rs1 rs2 s ha hb
  refine ⟨computes_of_writeback_eq rfl ?_, computes_of_writeback_eq rfl ?_, computes_of_writeback_eq rfl ?_,
    computes_of_writeback_eq rfl ?_⟩ <;> rw [ha, hb] <;> decide

end Sys2Proof.Proofs.MulDiv
end

section
/-! PROOFS of the statements of 42_alu_imm.md: the register-immediate ALU. The facts about a 12-bit field are stated for
every family that has one, so that the loads, the stores and jalr may cite them. -/

namespace Sys2Proof.Proofs.ImmediateAlu

open Sys2Proof.Machine Sys2Proof.Claims Sys2Proof.Proofs.MachineState Sys2Proof.Proofs.Encoding
  Sys2Proof.Proofs.RegisterAlu Sys2Proof.Proofs.MulDiv

/-! ### The sign-extended immediate: its bits, and its signed and unsigned value (R83) -/

section SignExtension

variable (f : BitVec 12)

/-- From bit 11 up, every bit is bit 11 of the field. -/
theorem getLsbD_signExtend_field {k : Nat} (hk : k < 32) : (f.signExtend 32).getLsbD k = f.getLsbD (min k 11) := by
  rw [BitVec.getLsbD_signExtend, decide_eq_true hk, Bool.true_and, BitVec.msb_eq_getLsbD_last]
  split_ifs with h
  · rw [min_eq_left (by omega)]
  · rw [min_eq_right (by omega)]

theorem toInt_signExtend_field : (f.signExtend 32).toInt = f.toInt := BitVec.toInt_signExtend_of_le (by decide)

/-- The extension of a negative field adds 2^32 - 2^12 to it. -/
theorem toNat_signExtend_field :
    (f.signExtend 32).toNat = if f.getLsbD 11 then f.toNat + 0xFFFFF000 else f.toNat := by
  rw [BitVec.toNat_signExtend, BitVec.toNat_setWidth_of_le (by decide), BitVec.msb_eq_getLsbD_last, add_ite]
  rfl

theorem add_signExtend_field (a : Word) : a + f.signExtend 32 = BitVec.ofInt 32 (a.toInt + f.toInt) := by
  rw [BitVec.ofInt_add, BitVec.ofInt_toInt, BitVec.signExtend]

theorem extractLsb'_signExtend_field : (f.signExtend 32).extractLsb' 0 12 = f := by
  apply BitVec.eq_of_toInt_eq
  rw [← toInt_signExtend_field, imm12_signExtend (imm12_signExtend_field f), toInt_signExtend_field]

end SignExtension

/-! ### Decoding of I-format words, and of the immediate shifts -/

section Words

variable {rd rs1 : RegIdx} {f3 : BitVec 3} {op : BitVec 7} {f : BitVec 12} {shamt : BitVec 5} {hi : BitVec 7}

/-- A word written from its 12-bit field is the encoding with the sign-extended immediate. -/
theorem wordI_eq_encI : wordI f rs1 f3 rd op = encI (f.signExtend 32) rs1 f3 rd op := by
  rw [encI, extractLsb'_signExtend_field]

/-- By `decode_encode`: an instruction whose immediate is the sign-extended field decodes from that field. -/
theorem decode_wordI {i : Instr} (he : encode i = encI (f.signExtend 32) rs1 f3 rd op)
    (hw : i.wf = imm12 (f.signExtend 32)) : decode (wordI f rs1 f3 rd op) = .ok i := by
  rw [wordI_eq_encI, ← he, decode_encode (hw.trans (imm12_signExtend_field f))]

/-- `funct3` 1: the bits above `shamt` are ignored (R160, R162, D22). -/
theorem decode_shiftLeft_word :
    decode (wordR hi shamt rs1 1 rd 0x13) = .ok (.slli rd rs1 shamt) := by
  have ho : opcodeOf (encR hi shamt rs1 1 rd 0x13) = 0x13#7 := opcodeOf_encR ..
  exact (decode_of_slli ho (funct3Of_encR ..)).trans (by rw [rdOf_encR, rs1Of_encR, rs2Of_encR])

/-- `funct3` 5: bit 5 of the upper seven, `w[30]`, alone chooses the shift (R94, R166, R167). -/
theorem decode_shiftRight_word :
    decode (wordR hi shamt rs1 5 rd 0x13) = .ok (if hi.getLsbD 5 then .srai rd rs1 shamt else .srli rd rs1 shamt) := by
  have ho : opcodeOf (encR hi shamt rs1 5 rd 0x13) = 0x13#7 := opcodeOf_encR ..
  refine (decode_of_0x13 ho).trans (congrArg _ ((routeImm_shiftRight (funct3Of_encR ..)).trans ?_))
  rw [rdOf_encR, rs1Of_encR, rs2Of_encR, funct7Of_encR, BitVec.getLsbD_eq_getElem (by decide)]
  cases hb : hi[5] <;> simp [and_0x20_eq_zero_iff, hb]

end Words

/-! ### The statements -/

/-- Settles O42: `decode_wordI` gives the encodings, `computes_of_writeback` the frame, and each bit is the library's, the
immediate's own being `getLsbD_signExtend_field`. -/
theorem bitwiseImmediateOperations : Obligations.BitwiseImmediateOperations := by
  intro rd rs1 f s
  refine ⟨⟨decode_wordI rfl rfl, _, computes_of_writeback rfl, ?xor⟩,
    ⟨decode_wordI rfl rfl, _, computes_of_writeback rfl, ?or⟩,
    ⟨decode_wordI rfl rfl, _, computes_of_writeback rfl, ?and⟩⟩ <;> intro k hk <;> rw [← getLsbD_signExtend_field f hk]
  case xor => rw [BitVec.getLsbD_xor, Bool.bne_eq_xor]
  case or => exact BitVec.getLsbD_or
  case and => exact BitVec.getLsbD_and

/-- Settles O43: each shift is its integer law at `shamt`, and the decoding of the words of `funct3` 1 and 5. -/
theorem immediateShifts : Obligations.ImmediateShifts := by
  constructor
  · intro rd rs1 shamt s
    exact ⟨computes_of_writeback_eq rfl (shiftLeft_eq_ofNat_mul ..),
      computes_of_writeback_eq rfl (shiftRight_eq_ofNat_div ..),
      computes_of_writeback_eq rfl (shiftRightArith_eq_ofInt_div ..)⟩
  · intro rd rs1 shamt hi
    exact ⟨decode_shiftLeft_word, decode_shiftRight_word⟩

/-- Settles O44: the value written is `boolWord` of the comparison with the immediate's signed or unsigned value. -/
theorem immediateComparisons : Obligations.ImmediateComparisons := by
  intro rd rs1 f s
  rw [← toInt_signExtend_field, ← toNat_signExtend_field, ← boolWord_lessSigned, ← boolWord_lessUnsigned]
  exact ⟨decode_wordI rfl rfl, computes_of_writeback rfl, decode_wordI rfl rfl, computes_of_writeback rfl⟩

/-- Settles O41: the sum modulo 2^32 is addition of words; the source's example word is decoded. -/
theorem addImmediateComputesSum : Obligations.AddImmediateComputesSum := by
  refine ⟨fun rd rs1 f s => ?_, by decide⟩
  exact ⟨decode_wordI rfl rfl, computes_of_writeback_eq rfl (add_signExtend_field ..)⟩

end Sys2Proof.Proofs.ImmediateAlu
end

section
/-! PROOFS of the statements of 43_load.md: the loads, and what a load or a store does that the memory refuses. What it
means to raise an error is stated for every instruction, so that the environment call may cite it. -/

namespace Sys2Proof.Proofs.Loads

open Sys2Proof.Machine Sys2Proof.Claims Sys2Proof.Proofs.MachineState Sys2Proof.Proofs.MemoryPort
  Sys2Proof.Proofs.MulDiv Sys2Proof.Proofs.ImmediateAlu

/-! ### A refused access (R186, R194, R236) -/

section Refused

variable {i : Instr} {s : State} {rd : RegIdx} {x v : Word} {n : Width} {ext : Word → Word}

/-- The frame of an instruction that raises an error: `haltWith` sets run state, record and observer outputs alone. -/
theorem raises_of_raise {r : HaltRecord} (h : exec i s = raise r s) : Raises i r s :=
  ⟨_, h, ⟨rfl, rfl, fun _ => rfl, fun _ => rfl, ⟨rfl, rfl, rfl⟩, ⟨rfl, rfl, rfl⟩, rfl, rfl⟩, rfl⟩

theorem raises_of_refused_load (hi : exec i s = loadAt rd x n ext s) (ha : s.memAdmit .load x n = false) :
    Raises i (.memoryFault .load x n s.pc (some s.obs.stepW) s.instret) s :=
  raises_of_raise (hi.trans (loadAt_of_refuse ha))

theorem raises_of_refused_store (hi : exec i s = storeAt x n v s) (ha : s.memAdmit .store x n = false) :
    Raises i (.memoryFault .store x n s.pc (some s.obs.stepW) s.instret) s :=
  raises_of_raise (hi.trans (storeAt_of_refuse ha))

end Refused

/-! ### The value an admitted load reads, and its extension (R52, R55, R181 to R185) -/

section Values

variable (b b0 b1 b2 b3 : Byte) (h : BitVec 16)

theorem sextByte_setWidth : sextByte (b.setWidth 32) = BitVec.ofInt 32 b.toInt := by
  rw [sextByte, BitVec.setWidth_setWidth_of_le b (by decide), BitVec.setWidth_eq, BitVec.signExtend]

theorem sextHalf_setWidth : sextHalf (h.setWidth 32) = BitVec.ofInt 32 h.toInt := by
  rw [sextHalf, BitVec.setWidth_setWidth_of_le h (by decide), BitVec.setWidth_eq, BitVec.signExtend]

theorem zextHalf_setWidth : zextHalf (h.setWidth 32) = BitVec.ofNat 32 h.toNat := by
  rw [zextHalf, BitVec.setWidth_setWidth_of_le h (by decide), BitVec.setWidth_eq, BitVec.ofNat_toNat]

/-- The number an append is: the upper part moved up by the size of the lower, and the lower added. -/
theorem toNat_append_eq_add {m n : Nat} (hi : BitVec m) (lo : BitVec n) :
    (hi ++ lo).toNat = hi.toNat * 2 ^ n + lo.toNat := by
  rw [BitVec.toNat_append, ← Nat.shiftLeft_add_eq_or_of_lt lo.isLt, Nat.shiftLeft_eq]

theorem toNat_append_bytes : (b1 ++ b0 : BitVec 16).toNat = b1.toNat * 256 + b0.toNat := toNat_append_eq_add b1 b0

/-- The sign of a half word is the sign of its upper byte. -/
theorem toInt_append_bytes : (b1 ++ b0 : BitVec 16).toInt = b1.toInt * 256 + b0.toNat := by
  rw [BitVec.toInt_append, Int.mul_comm]
  rfl

theorem wordOfBytes_eq_ofNat : wordOfBytes b0 b1 b2 b3 =
    BitVec.ofNat 32 (b3.toNat * 2 ^ 24 + b2.toNat * 2 ^ 16 + b1.toNat * 2 ^ 8 + b0.toNat) := by
  apply BitVec.eq_of_toNat_eq
  rw [wordOfBytes, BitVec.toNat_ofNat, toNat_append_eq_add, toNat_append_eq_add, toNat_append_eq_add]
  omega

end Values

section Admitted

variable {i : Instr} {s : State} {rd : RegIdx} {x u v : Word} {n : Width} {ext : Word → Word} {b0 b1 : Byte}

/-- Two bytes read are the half word with the byte at the lower address in bits 7:0 (R55). -/
theorem memRead_two_append (kind : AccessKind) (ha : s.params.policy.admits kind x .two = true)
    (h0 : s.mem.byteAt x.toNat = some b0) (h1 : s.mem.byteAt (x + 1#32).toNat = some b1) :
    s.memRead kind x .two = some ((b1 ++ b0 : BitVec 16).setWidth 32) := by
  rw [memRead_two kind ha h0 h1, BitVec.setWidth_append_eq_shiftLeft_setWidth_or]

/-- A load whose read is answered writes back the extension of what it read (R180). -/
theorem computes_of_read (hi : exec i s = loadAt rd x n ext s) (hr : s.memRead .load x n = some v) (hv : ext v = u) :
    Computes i rd u s :=
  computes_of_writeback_eq (hi.trans (loadAt_of_read hr)) hv

end Admitted

/-! ### The statements -/

/-- Settles O51: each of the eight is `loadAt` or `storeAt` at its own width, and a refused one raises. -/
theorem refusedDataAccessesRaiseMemoryFault : Obligations.RefusedDataAccessesRaiseMemoryFault := by
  rintro rd rs1 rs2 imm s ea rfl
  exact ⟨fun ha => ⟨raises_of_refused_load rfl ha, raises_of_refused_load rfl ha⟩,
    fun ha => ⟨raises_of_refused_load rfl ha, raises_of_refused_load rfl ha⟩,
    raises_of_refused_load rfl, raises_of_refused_store rfl, raises_of_refused_store rfl, raises_of_refused_store rfl⟩

/-- Settles O47: `decode_wordI` gives the encodings, and the byte read is extended with its sign or with zeros. -/
theorem byteLoads : Obligations.ByteLoads := by
  rintro rd rs1 f s ea b rfl ha hb
  refine ⟨⟨decode_wordI rfl rfl, ?lb⟩, ⟨decode_wordI rfl rfl, ?lbu⟩⟩
  case lb => exact computes_of_read rfl (memRead_one .load ha hb) (sextByte_setWidth b)
  case lbu =>
    rw [BitVec.ofNat_toNat]
    exact lbu_computes rfl hb ha

/-- Settles O48: the two bytes make up one half word, whose signed and unsigned value are those of its extensions. -/
theorem halfLoads : Obligations.HalfLoads := by
  rintro rd rs1 f s ea b0 b1 rfl ha h0 h1
  have hread := memRead_two_append .load ha h0 h1
  refine ⟨⟨decode_wordI rfl rfl, ?lh⟩, ⟨decode_wordI rfl rfl, ?lhu⟩⟩
  case lh =>
    rw [← toInt_append_bytes]
    exact computes_of_read rfl hread (sextHalf_setWidth _)
  case lhu =>
    rw [← toNat_append_bytes]
    exact computes_of_read rfl hread (zextHalf_setWidth _)

/-- Settles O49: the four bytes read are the word they make up. -/
theorem wordLoad : Obligations.WordLoad := by
  rintro rd rs1 f s ea b0 b1 b2 b3 rfl ha h0 h1 h2 h3
  rw [← wordOfBytes_eq_ofNat]
  exact ⟨decode_wordI rfl rfl, lw_computes rfl (memRead_four .load ha h0 h1 h2 h3)⟩

end Sys2Proof.Proofs.Loads
end

section
/-! PROOFS of the statements of 44_store.md: the stores. What an admitted store leaves is stated for every width. -/

namespace Sys2Proof.Proofs.Stores

open Sys2Proof.Machine Sys2Proof.Claims Sys2Proof.Proofs.Encoding Sys2Proof.Proofs.MemoryPort
  Sys2Proof.Proofs.ImmediateAlu

/-! ### Decoding of S-format words (R84, R95) -/

section Words

variable {rs1 rs2 : RegIdx} {f3 : BitVec 3} {op : BitVec 7} {hi : BitVec 7} {lo : BitVec 5} {f : BitVec 12}

/-- Below bit 12 the sign-extended immediate is the field itself. -/
theorem extractLsb'_signExtend_field_of_le {k n : Nat} (h : k + n ≤ 12) :
    (f.signExtend 32).extractLsb' k n = f.extractLsb' k n := by
  rw [← BitVec.extractLsb'_extractLsb'_of_le h, extractLsb'_signExtend_field]

/-- A word written from the two parts of its 12-bit field is the encoding with the sign-extended immediate. -/
theorem wordS_eq_encS : wordS hi rs2 rs1 f3 lo op = encS ((hi ++ lo : BitVec 12).signExtend 32) rs2 rs1 f3 op := by
  rw [encS, extractLsb'_signExtend_field_of_le (by decide), extractLsb'_signExtend_field_of_le (by decide),
    BitVec.extractLsb'_append_eq_left, BitVec.extractLsb'_append_eq_right]

/-- By `decode_encode`: a store whose immediate is the sign-extended field decodes from the field's two parts. -/
theorem decode_wordS {i : Instr} (he : encode i = encS ((hi ++ lo : BitVec 12).signExtend 32) rs2 rs1 f3 op)
    (hw : i.wf = imm12 ((hi ++ lo : BitVec 12).signExtend 32)) : decode (wordS hi rs2 rs1 f3 lo op) = .ok i := by
  rw [wordS_eq_encS, ← he, decode_encode (hw.trans (imm12_signExtend_field _))]

end Words

/-! ### What an admitted store changes (R53, R55, R190) -/

section Admitted

variable {s t : State} {x v : Word} {n : Width}

/-- A byte at none of the `n` addresses is as before an admitted store (R53). -/
theorem storeAt_byteAt_other (ha : s.memAdmit .store x n = true) (h : storeAt x n v s = .next t) {a : Nat}
    (hx : ∀ k < n.bytes, a ≠ (x + BitVec.ofNat 32 k).toNat) : t.mem.byteAt a = s.mem.byteAt a := by
  cases (storeAt_of_admit ha).symm.trans h
  exact Memory.byteAt_putBytes_other s.mem x (leBytes v n.bytes) a (by rwa [leBytes_length])

/-- An instruction that is an admitted store writes exactly its bytes; outside memory only `pc`, `instret` and
the observer outputs change (R26, R34). -/
theorem stores_of_storeAt {i : Instr} (hi : exec i s = storeAt x n v s) (ha : s.memAdmit .store x n = true) :
    Stores i x n.bytes v s := by
  have hnext := storeAt_of_admit (v := v) ha
  exact ⟨_, hi.trans hnext, fun _ => storeAt_byteAt ha hnext, fun _ => storeAt_byteAt_other ha hnext,
    fun _ => rfl, rfl, ⟨rfl, rfl, rfl⟩, ⟨rfl, rfl, rfl⟩, ⟨rfl, rfl, rfl, rfl⟩⟩

end Admitted

/-! ### The statement -/

/-- Settles O50: `decode_wordS` gives the encodings, and each store is `storeAt` at its own width. -/
theorem storesWriteExactlyTheirBytes : Obligations.StoresWriteExactlyTheirBytes := by
  rintro rs1 rs2 hi lo imm s ea rfl rfl
  exact ⟨⟨decode_wordS rfl rfl, stores_of_storeAt rfl⟩, ⟨decode_wordS rfl rfl, stores_of_storeAt rfl⟩,
    decode_wordS rfl rfl, stores_of_storeAt rfl⟩

end Sys2Proof.Proofs.Stores
end

section
/-! PROOFS of the statements of 45_branch.md: the conditional branches. The slice of a sign-extended field is stated for
every width of the field, so that jal may cite it. -/

namespace Sys2Proof.Proofs.Branches

open Sys2Proof.Machine Sys2Proof.Claims Sys2Proof.Proofs.Encoding

/-! ### Decoding of B-format words (R85, R95) -/

section Words

variable {rs1 rs2 : RegIdx} {f3 : BitVec 3} {b12 b11 : BitVec 1} {b10 : BitVec 6} {b4 : BitVec 4}

/-- A slice within the width of a sign-extended field is that slice of the field. -/
theorem extractLsb'_signExtend_of_le {m k n : Nat} {v : BitVec m} (hm : m ≤ 32) (h : k + n ≤ m) :
    (v.signExtend 32).extractLsb' k n = v.extractLsb' k n := by
  rw [← BitVec.extractLsb'_extractLsb'_of_le h, signExtend_extract m hm]

/-- A word written from the scattered parts of its offset is the encoding with the sign-extended offset. -/
theorem wordB_eq_encB : wordB b12 b10 rs2 rs1 f3 b4 b11 =
    encB ((b12 ++ b11 ++ b10 ++ b4 ++ 0#1 : BitVec 13).signExtend 32) rs2 rs1 f3 0x63#7 := by
  rw [encB]
  simp (disch := decide) only [extractLsb'_signExtend_of_le, BitVec.extractLsb'_append_eq_of_le,
    BitVec.extractLsb'_append_eq_of_add_le, Nat.reduceSub, BitVec.extractLsb'_eq_self]

theorem immB_wordB : immB (wordB b12 b10 rs2 rs1 f3 b4 b11) =
    (b12 ++ b11 ++ b10 ++ b4 ++ 0#1 : BitVec 13).signExtend 32 := by
  rw [wordB_eq_encB, immB_encB, extractLsb'_signExtend_of_le (by decide) (by decide), BitVec.extractLsb'_append_eq_left]

theorem decode_wordB : decode (wordB b12 b10 rs2 rs1 f3 b4 b11) =
    routeBranch ⟨0x63#7, 0, f3, rs1, rs2, 0, (b12 ++ b11 ++ b10 ++ b4 ++ 0#1 : BitVec 13).signExtend 32⟩ := by
  have ho : opcodeOf (wordB b12 b10 rs2 rs1 f3 b4 b11) = 0x63#7 := by rw [wordB_eq_encB, opcodeOf_encB]
  rw [decode_of_0x63 ho, fieldsB, immB_wordB, wordB_eq_encB, opcodeOf_encB, funct3Of_encB, rs1Of_encB, rs2Of_encB]

end Words

/-! ### The conditions, and what a branch does with them (R200 to R206) -/

section Conditions

variable (a b : Word)

theorem decide_word_eq : decide (a = b) = decide (a.toNat = b.toNat) := decide_eq_decide.2 BitVec.toNat_inj.symm

theorem not_decide_word_eq : (!decide (a = b)) = decide (a.toNat ≠ b.toNat) := by
  rw [decide_word_eq, decide_not]

theorem not_lessSigned : (!lessSigned a b) = decide (a.toInt ≥ b.toInt) := by
  rw [lessSigned, ← decide_not, decide_eq_decide, not_lt]

theorem not_lessUnsigned : (!lessUnsigned a b) = decide (a.toNat ≥ b.toNat) := by
  rw [lessUnsigned, ← decide_not, decide_eq_decide, not_lt]

end Conditions

/-- The frame of a branch: outside `pc`, the counters and the observer outputs nothing changes, and `taken` is the
condition (R34, R200). -/
theorem branches_of_branchIf {i : Instr} {c : Bool} {p : Prop} [Decidable p] {imm : Word} {s : State}
    (h : exec i s = branchIf c imm s) (hc : c = decide p) : Branches i p imm s := by
  subst hc
  refine ⟨_, h, ?pc, fun _ => rfl, fun _ => rfl, ⟨rfl, rfl, rfl⟩, ⟨rfl, rfl, rfl⟩, rfl, ?nTaken, ?nNotTaken, rfl⟩
  case pc => simp
  case nTaken | nNotTaken => simp [add_ite]

/-! ### The statement -/

/-- Settles O53: `branches_of_branchIf` at each condition, and `decode_wordB` with `routeBranch` at each `funct3`. -/
theorem branchesFollowTheirConditions : Obligations.BranchesFollowTheirConditions := by
  constructor
  · intro rs1 rs2 imm s
    exact ⟨branches_of_branchIf rfl (decide_word_eq ..), branches_of_branchIf rfl (not_decide_word_eq ..),
      branches_of_branchIf rfl rfl, branches_of_branchIf rfl (not_lessSigned ..),
      branches_of_branchIf rfl rfl, branches_of_branchIf rfl (not_lessUnsigned ..)⟩
  · rintro rs1 rs2 b12 b11 b10 b4 imm rfl
    simp only [decode_wordB]
    exact ⟨rfl, rfl, rfl, rfl, rfl, rfl⟩

end Sys2Proof.Proofs.Branches
end

section
/-! PROOFS of the statements of 46_upper_imm.md: lui and auipc. -/

namespace Sys2Proof.Proofs.UpperImmediates

open Sys2Proof.Machine Sys2Proof.Claims Sys2Proof.Proofs.MachineState Sys2Proof.Proofs.Encoding
  Sys2Proof.Proofs.MulDiv Sys2Proof.Proofs.Loads

section Field

variable {rd : RegIdx} {op : BitVec 7} {f : BitVec 20}

/-! ### Decoding of U-format words (R86) -/

/-- A word written from its 20-bit field is the encoding with the zero-extended immediate. -/
theorem wordU_eq_encU : f ++ rd ++ op = encU (f.setWidth 32) rd op := by
  rw [encU, BitVec.extractLsb'_setWidth_of_le (by decide), BitVec.extractLsb'_eq_self]

theorem imm20_setWidth_field : imm20 (f.setWidth 32) = true := by
  rw [imm20, decide_eq_true_eq, BitVec.toNat_setWidth_of_le (by decide)]
  exact Nat.le_of_lt_succ f.isLt

/-- By `decode_encode`: an instruction whose immediate is the zero-extended field decodes from that field. -/
theorem decode_wordU {i : Instr} (he : encode i = encU (f.setWidth 32) rd op) (hw : i.wf = imm20 (f.setWidth 32)) :
    decode (f ++ rd ++ op) = .ok i := by
  rw [wordU_eq_encU, ← he, decode_encode (hw.trans imm20_setWidth_field)]

/-! ### The value of the upper immediate (R210) -/

/-- The shifted field and the field with twelve zero bits after it are one word. -/
theorem upperImm_setWidth_field : upperImm (f.setWidth 32) = f ++ 0#12 := by
  have h : (f ++ 0#12).setWidth 32 = f.setWidth 32 <<< 12 ||| (0#12).setWidth 32 :=
    BitVec.setWidth_append_eq_shiftLeft_setWidth_or
  rw [BitVec.setWidth_eq, BitVec.setWidth_zero, BitVec.or_zero] at h
  exact h.symm

theorem add_upperImm_eq_ofNat (a : Word) :
    a + upperImm (f.setWidth 32) = BitVec.ofNat 32 (a.toNat + f.toNat * 2 ^ 12) := by
  apply BitVec.eq_of_toNat_eq
  rw [upperImm_setWidth_field, BitVec.toNat_add, toNat_append_eq_add, BitVec.toNat_zero, Nat.add_zero,
    BitVec.toNat_ofNat]

end Field

/-! ### The statements -/

/-- Settles O45: `decode_wordU` gives the encoding, `computes_of_writeback` the frame, and the value is the field before
twelve zero bits. -/
theorem loadUpperImmediate : Obligations.LoadUpperImmediate := by
  intro rd f s
  exact ⟨decode_wordU rfl rfl, computes_of_writeback_eq rfl upperImm_setWidth_field⟩

/-- Settles O46: as for lui, with the sum modulo 2^32 of the instruction's own address and the upper immediate. -/
theorem addUpperImmediateToPc : Obligations.AddUpperImmediateToPc := by
  intro rd f s
  exact ⟨decode_wordU rfl rfl, computes_of_writeback_eq rfl (add_upperImm_eq_ofNat s.pc)⟩

end Sys2Proof.Proofs.UpperImmediates
end

section
/-! PROOFS of the statements of 47_jump.md: jal and jalr. -/

namespace Sys2Proof.Proofs.Jumps

open Sys2Proof.Machine Sys2Proof.Claims Sys2Proof.Proofs.MachineState Sys2Proof.Proofs.RegisterAlu
  Sys2Proof.Proofs.ImmediateAlu Sys2Proof.Proofs.Branches

/-! ### Decoding of J-format words (R87) -/

section Words

variable {rd : RegIdx} {op : BitVec 7} {b20 b11 : BitVec 1} {b10 : BitVec 10} {b19 : BitVec 8}

/-- A word written from the scattered parts of its offset is the encoding with the sign-extended offset. -/
theorem wordJ_eq_encJ : b20 ++ b10 ++ b11 ++ b19 ++ rd ++ op =
    encJ ((b20 ++ b19 ++ b11 ++ b10 ++ 0#1 : BitVec 21).signExtend 32) rd op := by
  rw [encJ]
  simp (disch := decide) only [extractLsb'_signExtend_of_le, BitVec.extractLsb'_append_eq_of_le,
    BitVec.extractLsb'_append_eq_of_add_le, Nat.reduceSub, BitVec.extractLsb'_eq_self]

theorem immJ_wordJ : immJ (b20 ++ b10 ++ b11 ++ b19 ++ rd ++ op) =
    (b20 ++ b19 ++ b11 ++ b10 ++ 0#1 : BitVec 21).signExtend 32 := by
  rw [wordJ_eq_encJ, immJ_encJ, extractLsb'_signExtend_of_le (by decide) (by decide), BitVec.extractLsb'_append_eq_left]

theorem decode_wordJ : decode (b20 ++ b10 ++ b11 ++ b19 ++ rd ++ 0x6F#7) =
    .ok (.jal rd ((b20 ++ b19 ++ b11 ++ b10 ++ 0#1 : BitVec 21).signExtend 32)) := by
  have ho : opcodeOf (b20 ++ b10 ++ b11 ++ b19 ++ rd ++ 0x6F#7) = 0x6F#7 := by rw [wordJ_eq_encJ, opcodeOf_encJ]
  rw [decode_of_0x6F ho, immJ_wordJ, wordJ_eq_encJ, rdOf_encJ]

end Words

/-! ### The target of jalr, and what both jumps do (R215 to R217) -/

/-- Clearing bit 0 is the shift right and back left by one, which halves and doubles the sum. -/
theorem jalrTarget_eq_ofNat (base imm : Word) :
    jalrTarget base imm = BitVec.ofNat 32 ((base + imm).toNat / 2 * 2) := by
  have hmask : 0xFFFFFFFE#32 = BitVec.allOnes 32 <<< 1 := rfl
  have hshift : jalrTarget base imm = shiftLeft (shiftRight (base + imm) 1) 1 := by
    rw [jalrTarget, hmask, ← BitVec.shiftLeft_ushiftRight, shiftLeft, shiftRight]
  rw [hshift, shiftLeft_eq_ofNat_mul, shiftRight, BitVec.toNat_ushiftRight, Nat.shiftRight_eq_div_pow, pow_one]

/-- The frame of a jump: outside `rd`, `pc`, the counters and the observer outputs nothing changes. -/
theorem jumps_of_jumpTo {i : Instr} {rd : RegIdx} {target : Word} {s : State} (h : exec i s = jumpTo rd target s) :
    Jumps i rd target s := by
  refine ⟨_, h, rfl, ?link, fun r hr => State.reg_setReg_other s hr _, fun a => by simp,
    setReg_sameStreams s rd _, by simp [SameRun], by simp [RetiredTransfer, Outputs]⟩
  simp [State.reg_setReg]

/-! ### The statements -/

/-- Settles O54: `decode_wordJ` gives the encoding, `jumps_of_jumpTo` the link, the target and the frame. -/
theorem jumpAndLink : Obligations.JumpAndLink := by
  rintro rd b20 b11 b10 b19 imm s rfl
  exact ⟨decode_wordJ, jumps_of_jumpTo rfl⟩

/-- Settles O55: `decode_wordI` gives the encoding, and the target is computed from the state before the link is written,
so that `rd` = `rs1` is no case of its own. -/
theorem jumpAndLinkRegister : Obligations.JumpAndLinkRegister := by
  intro rd rs1 f s
  rw [← jalrTarget_eq_ofNat]
  exact ⟨decode_wordI rfl rfl, jumps_of_jumpTo rfl⟩

end Sys2Proof.Proofs.Jumps
end

section
/-! PROOFS of the statements of 48_ecall.md (the calls that end a run), 60_exceptions.md and 70_reset_and_hazards.md. A
step that leaves a halt record is taken apart once: `step_cases` for the step, `exec_halts` for its instruction. -/

namespace Sys2Proof.Proofs.Exceptions

open Sys2Proof.Machine Sys2Proof.Claims Sys2Proof.Proofs.MachineState Sys2Proof.Proofs.Encoding Sys2Proof.Proofs.Loads

/-! ### The frame of a halt (R28, R236, R238) -/

/-- Whatever the record, a halt changes run state, record and observer outputs alone. -/
theorem haltedBy_haltWith (r : HaltRecord) (s : State) : HaltedBy r s (s.haltWith r) :=
  ⟨rfl, rfl, fun _ => rfl, fun _ => rfl, ⟨rfl, rfl, rfl⟩, ⟨rfl, rfl, rfl⟩, rfl, rfl⟩

/-! ### What leaves a halt record (R230) -/

section Halts

variable {s t : State} {r : HaltRecord} {i : Instr} {w : Word}

/-- An instruction that completes leaves no halt record where there was none. -/
theorem halt_ne_of_completes (hc : Completes s t) (h0 : s.halt = none) : t.halt ≠ some r := by
  simp [hc.halt, h0]

/-- The environment calls that leave a halt record: the exits and the unrecognised ones. -/
theorem execEcall_halts (h0 : s.halt = none) (h : execEcall s = .next t) (hr : t.halt = some r) :
    ((s.reg 17 = 3 ∨ s.reg 17 = 93) ∧ r = .exit (s.reg 17) s.pc ∧ t = s.advance.haltWith r) ∨
    (s.reg 17 ∉ [1, 2, 3, 93] ∧ r = .unrecognizedSyscall (s.reg 17) s.pc s.obs.stepW s.instret ∧ t = s.haltWith r) := by
  rcases ecall_cases h with ⟨-, b, rest, -, rfl⟩ | ⟨-, -, -, rfl⟩ | ⟨-, -, -, rfl⟩ | ⟨-, rfl⟩ | ⟨h17, rfl⟩ |
    ⟨h1, h2, h3, h93, rfl⟩
  · exact absurd hr (halt_ne_of_completes (completes_readByte _ _ _ _) h0)
  · exact absurd hr (halt_ne_of_completes (completes_writeReg _ _ _) h0)
  · simp [h0] at hr
  · exact absurd hr (halt_ne_of_completes (completes_putChar _ _) h0)
  · obtain rfl := Option.some.inj hr
    exact .inl ⟨h17, rfl, rfl⟩
  · obtain rfl := Option.some.inj hr
    exact .inr ⟨by simp [h1, h2, h3, h93], rfl, rfl⟩

/-- The instructions that leave a halt record: a load or store refused its own access, or an environment call. -/
theorem exec_halts (h0 : s.halt = none) (h : exec i s = .next t) (hr : t.halt = some r) :
    (∃ kind x n, kind ≠ .fetch ∧ dataAccess i s = some (kind, x, n) ∧ s.memAdmit kind x n = false ∧
      r = .memoryFault kind x n s.pc (some s.obs.stepW) s.instret ∧ t = s.haltWith r) ∨
    (i = .ecall ∧ execEcall s = .next t) := by
  rcases exec_cases h with ⟨rd, v, rfl⟩ | ⟨x, n, v, -, -, rfl⟩ | ⟨c, imm, rfl⟩ | ⟨rd, x, rfl⟩ |
    ⟨kind, x, n, hk, hacc, ha, rfl⟩ | he
  · exact absurd hr (halt_ne_of_completes (completes_writeReg _ _ _) h0)
  · exact absurd hr (halt_ne_of_completes (completes_store _ _ _) h0)
  · exact absurd hr (halt_ne_of_completes (completes_branch _ _ _) h0)
  · exact absurd hr (halt_ne_of_completes (completes_jump _ _ _ _) h0)
  · obtain rfl := Option.some.inj hr
    exact .inl ⟨kind, x, n, hk, hacc, ha, rfl, rfl⟩
  · exact .inr he

/-! ### Errors are precise (R236, D15) -/

/-- An instruction that raises an error leaves what `haltWith` leaves: only the exit moves `pc`. -/
theorem exec_error_eq_haltWith (h0 : s.halt = none) (h : exec i s = .next t) (hr : t.halt = some r)
    (herr : r.isError = true) : t = s.haltWith r := by
  rcases exec_halts h0 h hr with ⟨kind, x, n, -, -, -, -, ht⟩ | ⟨-, he⟩
  · exact ht
  · rcases execEcall_halts h0 he hr with ⟨-, rfl, -⟩ | ⟨-, -, ht⟩
    · cases herr
    · exact ht

/-- A step that ends with an error halts the state it began in, before or after it drives the word it fetched. -/
theorem step_error_eq_haltWith (h0 : s.halt = none) (h : step s = .next t) (hr : t.halt = some r)
    (herr : r.isError = true) : t = s.haltWith r ∨ ∃ w, t = (s.drive w).haltWith r := by
  obtain ⟨-, ⟨-, rfl⟩ | ⟨-, ⟨-, rfl⟩ | ⟨w, e, -, -, rfl⟩ | ⟨w, i, -, -, he⟩⟩⟩ := step_cases h
  · obtain rfl := Option.some.inj hr
    cases herr
  · obtain rfl := Option.some.inj hr
    exact .inl rfl
  · obtain rfl := Option.some.inj hr
    exact .inr ⟨w, rfl⟩
  · exact .inr ⟨w, exec_error_eq_haltWith h0 he hr herr⟩

/-! ### The five causes (R230 to R234, R237 to R239) -/

/-- The word fetched is the word the admitted bytes at `pc` hold (R54, R55). -/
theorem holdsWord_of_fetch (h : s.fetch = some w) : HoldsWord s w := by
  obtain ⟨ha, b0, b1, b2, b3, h0, h1, h2, h3, rfl⟩ := memRead_four_inv .fetch h
  exact ⟨b0, b1, b2, b3, h0, h1, h2, h3, ha, rfl⟩

/-- An instruction's access is read off the registers, which driving its word does not touch. -/
theorem dataAccess_drive (i : Instr) (s : State) (w : Word) : dataAccess i (s.drive w) = dataAccess i s := rfl

/-- The record an instruction leaves names a cause that is true of the step that fetched it. -/
theorem causeHolds_of_exec (hw : HoldsWord s w) (hd : decode w = .ok i) (h0 : s.halt = none)
    (h : exec i (s.drive w) = .next t) (hr : t.halt = some r) : CauseHolds s t r := by
  rcases exec_halts (s := s.drive w) h0 h hr with ⟨kind, x, n, hk, hacc, ha, rfl, -⟩ | ⟨rfl, he⟩
  · rw [dataAccess_drive] at hacc
    exact ⟨rfl, rfl, ha, fun hf => absurd hf hk, fun _ => ⟨w, i, rfl, hw, hd, hacc⟩⟩
  · rcases execEcall_halts (s := s.drive w) h0 he hr with ⟨h17, rfl, rfl⟩ | ⟨h17, rfl, -⟩
    · exact ⟨rfl, ⟨w, hw, hd⟩, rfl, h17, rfl⟩
    · exact ⟨rfl, rfl, hw, hd, rfl, h17⟩

theorem causeHolds_of_step (h0 : s.halt = none) (h : step s = .next t) (hr : t.halt = some r) : CauseHolds s t r := by
  obtain ⟨-, ⟨hb, rfl⟩ | ⟨-, ⟨hf, rfl⟩ | ⟨w, e, hf, hd, rfl⟩ | ⟨w, i, hf, hd, he⟩⟩⟩ := step_cases h
  · obtain rfl := Option.some.inj hr
    exact ⟨rfl, rfl, of_decide_eq_true hb⟩
  · obtain rfl := Option.some.inj hr
    exact ⟨rfl, rfl, (memRead_eq_none_iff s .fetch s.pc .four).1 hf, fun _ => ⟨rfl, rfl, rfl⟩, fun hk => absurd rfl hk⟩
  · obtain rfl := Option.some.inj hr
    exact ⟨rfl, rfl, holdsWord_of_fetch hf, (illegalSetIsExact w).2 ⟨e, hd⟩⟩
  · exact causeHolds_of_exec (holdsWord_of_fetch hf) hd h0 he hr

end Halts

/-! ### The statements -/

/-- Settles O21: a halt with an error is `haltWith` of the state before the step, up to the observer outputs. -/
theorem errorsArePrecise : Obligations.ErrorsArePrecise := by
  intro s t r h0 h hr herr
  rcases step_error_eq_haltWith h0 h hr herr with rfl | ⟨w, rfl⟩
  all_goals exact ⟨rfl, rfl, fun _ => rfl, fun _ => rfl, ⟨rfl, rfl, rfl⟩, ⟨rfl, rfl, rfl⟩, rfl, rfl, rfl⟩

/-- Settles O22: a record stands only in Halted, and each way a step comes to leave one makes its cause true. -/
theorem haltCausesAreTheFive : Obligations.HaltCausesAreTheFive := by
  intro s t r h0 h hr
  have hhalted : t.run = .halted := (step_halted_iff h0 h).2 (by simp [hr])
  exact ⟨hhalted, causeHolds_of_step h0 h hr⟩

/-- Settles O13: the budget test stands before the fetch. -/
theorem budgetIsCheckedFirst : Obligations.BudgetIsCheckedFirst := by
  intro s hrun hb
  exact ⟨_, step_of_budget hrun (decide_eq_true hb), haltedBy_haltWith _ s, rfl⟩

/-- Settles O14: a fetch answers exactly where the memory admits it. -/
theorem refusedFetchRaisesMemoryFault : Obligations.RefusedFetchRaisesMemoryFault := by
  intro s hready ha
  have hfetch : s.fetch = none := (memRead_eq_none_iff s .fetch s.pc .four).2 ha
  exact ⟨_, step_of_refused_fetch hready.1 (budgetReached_of_ready hready) hfetch, haltedBy_haltWith _ s, rfl⟩

/-- Settles O15: a word of the Illegal set is fetched like any other, and the decoder refuses it. -/
theorem illegalWordRaisesIllegalInstruction : Obligations.IllegalWordRaisesIllegalInstruction := by
  intro s w hready hw hill
  obtain ⟨e, hd⟩ := (illegalSetIsExact w).1 hill
  have hstep := step_of_illegal hready.1 (budgetReached_of_ready hready) (fetch_of_holdsWord hw) hd
  obtain ⟨hrun, hhalt, hregs, hmem, hstreams, hcounters, hparams, hout⟩ :=
    haltedBy_haltWith (.illegalInstruction s.pc w s.instret) (s.drive w)
  exact ⟨_, hstep, hrun, hhalt, rfl, hregs, hmem, hstreams, hcounters, hparams, hout⟩

/-- Settles O59: the record is made before `pc` moves on, and a halt keeps the rest. -/
theorem ecallExits : Obligations.EcallExits := by
  intro s h17
  exact ⟨_, execEcall_exit h17, haltedBy_haltWith _ s.advance, rfl⟩

/-- Settles O60: a number that is none of the four is `raise`d by the service. -/
theorem ecallRaisesUnrecognizedSyscall : Obligations.EcallRaisesUnrecognizedSyscall := by
  intro s h1 h2 h3 h93
  exact raises_of_raise (execEcall_unknown h1 h2 h3 h93)

/-- Settles O28: the host's own laws for the reset, and the step of a Halted core is no next state. -/
theorem resetBeginsANewRun : Obligations.ResetBeginsANewRun := by
  refine ⟨fun entry input ended s => ⟨?registers, hostReset_pc .., hostReset_run .., hostReset_halt .., ?memory⟩,
    fun _ _ => step_ne_next_of_halted⟩
  case registers => exact State.resetWith_reg entry s.mem input ended s.params
  case memory =>
    intro a
    rw [hostReset_mem]

end Sys2Proof.Proofs.Exceptions
end
